-- ==== Sys2Proof/Word.lean ====
section
/-! DEFINITION. The word type of the datapath and the names of the sequencer's phases.
Every register and every port of the engine is an unsigned bit vector (spec/00_scope.md R12, R13;
spec/20_memory.md R51: bit `i` has weight `2^i`). -/

namespace Sys2Proof

/-- An unsigned value of `n` bits (R12). -/
abbrev Word (n : Nat) : Type := BitVec n

/-- The four values of the sequencer phase `PHASE` (R26). Their 2-bit codes (R77) stand in
`Sys2Proof.Phase.code`. -/
inductive Phase where
  /-- No run since reset. -/
  | idle
  /-- A run is in progress and fewer than `N` iterations are done. -/
  | iter
  /-- All `N` iterations are done and the correction is due. -/
  | corr
  /-- The last run finished, or was rejected; the results are held. -/
  | done
  deriving DecidableEq, Repr

end Sys2Proof
end

