-- ==== Sys2Proof/Config.lean ====
section
/-! DEFINITION. What is fixed when an engine is elaborated (spec/10_state.md R34): the width `N`, the
supported widths, the zero-divisor policy, and the derived counter width `CW`.
The spec leaves no value free after any micro-operation, so there is no opaque constant here. -/

namespace Sys2Proof

/-- `DIV0_POLICY` (R9): what a DIV with a zero divisor does. -/
inductive Div0Policy where
  /-- The run proceeds with the degenerate result (R101), the reference behaviour. -/
  | proceed
  /-- The run is refused (R102). -/
  | reject
  deriving DecidableEq, Repr

/-- The configuration of one elaborated engine. R202: it carries the proof that `N ≥ 1` and that `N` is
one of the supported widths, so no engine of another width can be written down. The set
SUPPORTED_WIDTHS (R8) is a strictly rising list, so that equal sets are equal data. -/
structure Config where
  /-- `N`, the bit width (R7). -/
  n : Nat
  /-- `SUPPORTED_WIDTHS` (R8). -/
  supportedWidths : List Nat
  /-- `DIV0_POLICY` (R9). -/
  div0Policy : Div0Policy
  n_pos : 1 ≤ n
  widths_sorted : supportedWidths.Pairwise (· < ·)
  widths_pos : ∀ w ∈ supportedWidths, 1 ≤ w
  n_supported : n ∈ supportedWidths
  deriving DecidableEq, Repr

/-- `CW` (R10): `max(1, ⌈log2(N+1)⌉)`, the least width that holds every value `0..N`. For `N ≥ 1`
the ceiling is one more than the position of the highest set bit of `N`. -/
def Config.cw (cfg : Config) : Nat := max 1 (cfg.n.log2 + 1)

/-- DESIGN CHOICE (notes/assumptions/4.md). The engine that `State.reset` describes: `N` is OPEN in the
spec (R7), so one of its two reference widths is taken, with the reference set of widths (R8) and the
reference-compatible policy (R9). Statements range over every configuration. -/
def Config.reference : Config where
  n := 4
  supportedWidths := [4, 8]
  div0Policy := .proceed
  n_pos := by decide
  widths_sorted := by decide
  widths_pos := by decide
  n_supported := by decide

end Sys2Proof
end

