-- ==== Sys2Proof/Syntax.lean ====
section
/-! DEFINITION. The micro-operations of the engine, one constructor per row of spec/opcode_table.json
(spec/30_encoding.md R74). -/

namespace Sys2Proof

/-- What the engine can do at one rising edge (R70). A constructor keeps, as its fields, the bits of the
decode word U (R71) that its row marks `x`, so that a constructor with its fields is one whole decode
word and no bit of an encoding is dropped. No meaning reads them: the rows say they are don't-care.
The operands of DIV are input ports (R80), not fields of U. -/
inductive Instr where
  /-- `1xxxxx` RESET (R230). -/
  | reset (phase : Phase) (start adv sel : Bool)
  /-- `0x00xx` HOLD (R105). -/
  | hold (phase : Phase) (adv sel : Bool)
  /-- `0x01xx` DIV (R100, R101, R102). -/
  | div (phase : Phase) (adv sel : Bool)
  /-- `0x1x0x` STALL (R123). -/
  | stall (phase : Phase) (start sel : Bool)
  /-- `001x10` STEP.SUB (R121). -/
  | stepSub (start : Bool)
  /-- `001x11` STEP.ADD (R122). -/
  | stepAdd (start : Bool)
  /-- `011x10` CORR.NONE (R150). -/
  | corrNone (start : Bool)
  /-- `011x11` CORR.ADD (R151). -/
  | corrAdd (start : Bool)
  deriving DecidableEq, Repr

end Sys2Proof
end

