-- ==== Sys2Proof/WellFormed.lean ====
section
/-! DEFINITION. Which terms of `Instr` are decode words of their own row (spec/30_encoding.md R74): HOLD and
DIV belong to IDLE and DONE, STALL to ITER and CORR; RESET may stand beside any phase. -/

namespace Sys2Proof

/-- The phases in which no run is in progress: the pattern `x0` of the rows HOLD and DIV. -/
def Phase.atRest : Phase → Bool
  | .idle | .done => true
  | .iter | .corr => false

/-- A micro-operation whose kept phase fits its row. -/
def Instr.wf : Instr → Bool
  | .reset _ _ _ _ => true
  | .hold phase _ _ => phase.atRest
  | .div phase _ _ => phase.atRest
  | .stall phase _ _ => !phase.atRest
  | .stepSub _ => true
  | .stepAdd _ => true
  | .corrNone _ => true
  | .corrAdd _ => true

end Sys2Proof
end

