-- ==== Sys2Proof/Decode.lean ====
section
/-! DEFINITION. The decode word U, its decoder and its encoder (spec/30_encoding.md R71, R74, R77, R78), and the
micro-operation map as a table of (match, mask) pairs beside them. -/

namespace Sys2Proof

/-- The code of a phase (R77). -/
def Phase.code : Phase → BitVec 2
  | .idle => 0b00#2
  | .iter => 0b01#2
  | .corr => 0b11#2
  | .done => 0b10#2

/-- The phase of a code (R77: all four codes are legal). -/
def Phase.ofCode (b : BitVec 2) : Phase :=
  if b = 0b00#2 then .idle
  else if b = 0b01#2 then .iter
  else if b = 0b11#2 then .corr
  else .done

/-- `PHASE[0]`: a run is in progress (R26). -/
def Phase.busy (p : Phase) : Bool := p.code.getLsbD 0

/-- The named error codes (R78). The code 11 has no name. -/
inductive ErrCode where
  | none
  | div0Proceed
  | div0Reject
  deriving DecidableEq, Repr

/-- The 2-bit value of a named error code (R78). -/
def ErrCode.code : ErrCode → BitVec 2
  | .none => 0b00#2
  | .div0Proceed => 0b01#2
  | .div0Reject => 0b10#2

/-- Reading ERR: 11 is reserved and is not interpreted (R78). -/
def ErrCode.ofCode (b : BitVec 2) : Option ErrCode :=
  if b = 0b00#2 then some .none
  else if b = 0b01#2 then some .div0Proceed
  else if b = 0b10#2 then some .div0Reject
  else Option.none

/-- U[5:0] from its five fields (R71): `rst`, `phase`, `start`, `adv`, `sel`, the first the most significant. -/
def packWord (rst : Bool) (phase : Phase) (start adv sel : Bool) : BitVec 6 :=
  BitVec.ofBool rst ++ phase.code ++ BitVec.ofBool start ++ BitVec.ofBool adv ++ BitVec.ofBool sel

/-- The `phase` field, bits [4:3] of U (R71). -/
def wordPhase (u : BitVec 6) : Phase := Phase.ofCode (u.extractLsb' 3 2)

/-- The decoder (R74, "In words"): `rst` decides first; at rest `start` chooses DIV or HOLD; in a run
`start` is ignored, `adv = 0` stalls, and otherwise the phase and `sel` choose. It is total (R75). -/
def decode (u : BitVec 6) : Instr :=
  let phase := wordPhase u
  let start := u.getLsbD 2
  let adv := u.getLsbD 1
  let sel := u.getLsbD 0
  if u.getLsbD 5 then .reset phase start adv sel
  else match phase with
    | .idle => if start then .div .idle adv sel else .hold .idle adv sel
    | .done => if start then .div .done adv sel else .hold .done adv sel
    | .iter => if !adv then .stall .iter start sel else if sel then .stepAdd start else .stepSub start
    | .corr => if !adv then .stall .corr start sel else if sel then .corrAdd start else .corrNone start

/-- The encoder: the decode word of a micro-operation, from the patterns of R74. -/
def encode : Instr → BitVec 6
  | .reset phase start adv sel => packWord true phase start adv sel
  | .hold phase adv sel => packWord false phase false adv sel
  | .div phase adv sel => packWord false phase true adv sel
  | .stall phase start sel => packWord false phase start false sel
  | .stepSub start => packWord false .iter start true false
  | .stepAdd start => packWord false .iter start true true
  | .corrNone start => packWord false .corr start true false
  | .corrAdd start => packWord false .corr start true true

/-- One row of the micro-operation map as a (match, mask) pair (R74). -/
structure OpcodeRow where
  matchBits : BitVec 6
  mask : BitVec 6
  deriving DecidableEq, Repr

/-- A decode word matches a row when its masked bits are the row's. -/
def OpcodeRow.matchesWord (r : OpcodeRow) (u : BitVec 6) : Bool := (u &&& r.mask) == r.matchBits

/-- The row of a micro-operation (R74, the second table; spec/opcode_table.json). -/
def Instr.row : Instr → OpcodeRow
  | .reset _ _ _ _ => ⟨0b100000#6, 0b100000#6⟩
  | .hold _ _ _ => ⟨0b000000#6, 0b101100#6⟩
  | .div _ _ _ => ⟨0b000100#6, 0b101100#6⟩
  | .stall _ _ _ => ⟨0b001000#6, 0b101010#6⟩
  | .stepSub _ => ⟨0b001010#6, 0b111011#6⟩
  | .stepAdd _ => ⟨0b001011#6, 0b111011#6⟩
  | .corrNone _ => ⟨0b011010#6, 0b111011#6⟩
  | .corrAdd _ => ⟨0b011011#6, 0b111011#6⟩

/-- The eight rows, in the table's order. -/
def opcodeRows : List OpcodeRow :=
  [Instr.row (.reset .idle false false false), Instr.row (.hold .idle false false),
   Instr.row (.div .idle false false), Instr.row (.stall .iter false false),
   Instr.row (.stepSub false), Instr.row (.stepAdd false),
   Instr.row (.corrNone false), Instr.row (.corrAdd false)]

/-- Why a number is refused as a decode word. -/
inductive DecodeError where
  /-- It does not fit the six bits of U (R71, R84). -/
  | widerThanDecodeWord
  deriving DecidableEq, Repr

/-- The decoder on any number: the only numbers refused are those that are no six-bit word
(DESIGN CHOICE, notes/assumptions/16.md). -/
def decodeWord (w : Nat) : Except DecodeError Instr :=
  if w < 64 then .ok (decode (BitVec.ofNat 6 w)) else .error .widerThanDecodeWord

/-- What the decoder reads from a word numbered as spec/opcode_table.json numbers it: the table's rows are
U itself, bit 0 the least significant. `nbits` is the row's length in whole bytes, so a word has its bits
6 and 7 clear. -/
def decodeTableWord (_nbits w : Nat) : Option Instr :=
  match decodeWord w with
  | .ok i => some i
  | .error _ => Option.none

end Sys2Proof
end

