-- ==== Sys2Proof/Machine/Ports.lean ====
section
/-! DEFINITION. The data that crosses the engine's boundary (spec/10_state.md R38, R39; spec/41_iteration.md R124) and
the commands of the host agent (spec/30_encoding.md R82, R83; spec/43_host_interface.md R170). -/

namespace Sys2Proof.Machine

/-- The input ports as the host drives them for one rising edge (R38), which is also one line of the
stimulus notation (R82). `clk` is the edge itself. -/
structure Line (n : Nat) where
  rst : Bool
  start : Bool
  stepReady : Bool
  dividend : Word n
  divisor : Word n
  deriving DecidableEq, Repr

/-- The output ports (R39). -/
structure Outputs (n cw : Nat) where
  busy : Bool
  done : Bool
  resultValid : Bool
  quotient : Word n
  remainder : Word n
  errCode : BitVec 2
  stepValid : Bool
  stepIndex : BitVec cw
  stepA : Word n
  stepQ : Word n
  stepCarry : Bool
  stepOp : Bool
  deriving DecidableEq, Repr

/-- A StepRecord (R124): the 1-based index, the resulting A and Q, the carry bit and the operation
(`true` is shift+add, R79). -/
structure StepRecord (n : Nat) where
  index : Nat
  a : Word n
  q : Word n
  carry : Bool
  op : Bool
  deriving DecidableEq, Repr

/-- What the host reads when a run ends (spec/42_correction.md R153, R154): the Result with the records it collected and
`err_code`, which tells a zero divisor's run from a normal one (R177 H8), or that the run was refused (R102). -/
inductive RunOutcome (n : Nat) where
  | result (quotient remainder : Word n) (errCode : BitVec 2) (steps : List (StepRecord n))
  | rejected
  deriving DecidableEq, Repr

/-- What the host reports to its caller when it issues no DIV (R171, R173, R203; spec/90_conflicts.md C4: both
causes are reported as InvalidInput). -/
inductive HostReport where
  | invalidInput
  deriving DecidableEq, Repr

/-- One entry of the host's plan. -/
inductive HostCmd (n : Nat) where
  /-- Drive this line at one edge (R82). -/
  | line (l : Line n)
  /-- Drive `ready` while `done = 0` (R83, DRAIN). -/
  | drain
  /-- A division request: two operand strings and a width (R170). -/
  | divide (dividend divisor : List Char) (width : Int)
  deriving DecidableEq, Repr

/-- The line `-`: every input is 0 (R82). -/
def Line.idle (n : Nat) : Line n := ⟨false, false, false, 0#n, 0#n⟩

/-- The line `ready` (R82). -/
def Line.ready (n : Nat) : Line n := { Line.idle n with stepReady := true }

end Sys2Proof.Machine
end

