-- ==== Sys2Proof/Machine/State.lean ====
section
/-! DEFINITION. The state of the machine as plain data: the engine's registers (spec/10_state.md R20), the input
ports, and the host agent (spec/00_scope.md R5); the reasons to stop; the state after reset (R36).
The engine has no memory (spec/20_memory.md R50), so State has none. -/

namespace Sys2Proof.Machine

/-- The engine's registers: exactly those of R20. -/
structure Engine (cfg : Config) where
  /-- `A`, the accumulator: N bits, no extra sign bit (R21, R11). -/
  a : Word cfg.n
  /-- `Q`, the quotient register (R22). -/
  q : Word cfg.n
  /-- `M`, the divisor register (R23). -/
  m : Word cfg.n
  /-- `CNT`, the iteration counter (R25). -/
  cnt : BitVec cfg.cw
  /-- `PHASE`, the sequencer phase (R26). -/
  phase : Phase
  /-- `PEND`, a record is presented and not yet accepted (R27). -/
  pend : Bool
  /-- `C`, the carry bit of the presented record (R28). -/
  c : Bool
  /-- `OP`, the operation of the presented record, 1 for shift+add (R29). -/
  op : Bool
  /-- `ERR`, the error code (R30). All four values can be held; 11 is reserved (R78). -/
  err : BitVec 2
  deriving DecidableEq, Repr

/-- The host agent (R5, R170): what it still has to drive, the step records it has collected in the current
run (R175), the outcomes of the runs that have ended (R170, R5), and what it has reported to its caller (R203). These are the model's own fields; the engine
reads none of them. -/
structure Collab (n : Nat) where
  plan : List (HostCmd n)
  records : List (StepRecord n)
  outcomes : List (RunOutcome n)
  reports : List HostReport
  deriving DecidableEq, Repr

/-- The whole machine between two rising edges. `cfg` is fixed at elaboration and no step changes it
(R34); `ports` is what the host drives for the coming edge. -/
structure State where
  cfg : Config
  eng : Engine cfg
  ports : Line cfg.n
  host : Collab cfg.n
  deriving DecidableEq, Repr

/-- Why the machine stops. -/
inductive Fault where
  /-- Raised by `step` at an edge without `rst` when ERR holds the reserved code 11 (R78: a model that
  reads it must fault, not interpret it). Safe: no run after a reset reaches it (R35). -/
  | reservedErr
  deriving DecidableEq, Repr

/-- Why a step has no meaning. -/
inductive Refusal where
  /-- A micro-operation without a meaning, raised by its arm of `exec` only. Safe. No arm of this model
  raises it: all eight micro-operations have their meaning. -/
  | notModelled (mnemonic : String)
  deriving DecidableEq, Repr

/-- The reset values of the registers (R36). -/
def Engine.reset (cfg : Config) : Engine cfg where
  a := 0#cfg.n
  q := 0#cfg.n
  m := 0#cfg.n
  cnt := 0#cfg.cw
  phase := .idle
  pend := false
  c := false
  op := false
  err := 0b00#2

/-- A host that has done nothing yet. -/
def Collab.empty (n : Nat) : Collab n := ⟨[], [], [], []⟩

/-- The machine of a configuration right after reset: the registers as R36 gives them. The spec gives the
ports and the host no value there: DESIGN CHOICE (notes/assumptions/3.md), the line of zeros and an empty plan. -/
def State.resetOf (cfg : Config) : State :=
  ⟨cfg, Engine.reset cfg, Line.idle cfg.n, Collab.empty cfg.n⟩

/-- The machine right after reset, for the reference configuration (notes/assumptions/4.md). -/
def State.reset : State := State.resetOf Config.reference

end Sys2Proof.Machine
end

