-- ==== Sys2Proof/Machine/Operands.lean ====
section
/-! DEFINITION. The operand forms: masking to a width (spec/00_scope.md R12), the operand ports of DIV
(spec/30_encoding.md R80), and the binary text of an operand (spec/43_host_interface.md R171, R172, R176). -/

namespace Sys2Proof.Machine

/-- `mask_w(v) = v mod 2^w` (R12). -/
def maskN (w : Nat) (v : Nat) : Word w := BitVec.ofNat w v

/-- The dividend as DIV captures it: the whole port, no extension and no scaling (R80). -/
def dividendOperand (s : State) : Word s.cfg.n := s.ports.dividend

/-- The divisor as DIV captures it (R80). -/
def divisorOperand (s : State) : Word s.cfg.n := s.ports.divisor

/-- A character of an operand string (R171). -/
def isBinaryDigit (ch : Char) : Bool := ch == '0' || ch == '1'

/-- A valid operand string: one or more characters, each 0 or 1 (R171). -/
def validOperandText (t : List Char) : Bool := !t.isEmpty && t.all isBinaryDigit

/-- The number a valid string denotes, most significant digit first (R172). -/
def binaryValue (t : List Char) : Nat :=
  t.foldl (fun acc ch => 2 * acc + (if ch = '1' then 1 else 0)) 0

/-- What the host drives on an N-bit port for a valid string: its value masked to N bits (R172). -/
def operandOfText (n : Nat) (t : List Char) : Word n := maskN n (binaryValue t)

/-- A value in binary, zero-padded to its width, most significant digit first (R176). -/
def binaryText {n : Nat} (w : Word n) : List Char :=
  (List.range n).map fun k => if w.getLsbD (n - 1 - k) then '1' else '0'

end Sys2Proof.Machine
end

