-- ==== Sys2Proof/Machine/Flags.lean ====
section
/-! DEFINITION. Everything the spec computes from the registers without storing it: the sign flag and the carry bit
(spec/10_state.md R32), `sel`, `adv` and the decode word U (spec/30_encoding.md R71, R72, R73), the output ports and
STATUS (R33, R39). -/

namespace Sys2Proof.Machine

/-- The sign flag of an N-bit value: its bit N-1, read in place (R13, R32). -/
def signFlag {n : Nat} (v : Word n) : Bool := v.getLsbD (n - 1)

/-- The carry bit: `Q[N-1]` before the shift (R32; R120 step 1). -/
def carryBit {n : Nat} (q : Word n) : Bool := q.getLsbD (n - 1)

/-- A after the combined shift, `mask_N(2*A + Q[N-1])` (R120 steps 1 and 2). -/
def shiftedA {n : Nat} (a q : Word n) : Word n := maskN n (2 * a.toNat + (carryBit q).toNat)

/-- The select bit (R72): the sign of the shifted A in ITER, of A in CORR, 0 at rest. -/
def selectBit {cfg : Config} (e : Engine cfg) : Bool :=
  match e.phase with
  | .iter => signFlag (shiftedA e.a e.q)
  | .corr => signFlag e.a
  | .idle => false
  | .done => false

/-- The advance bit (R73): no record is pending, or the pending one is accepted at this edge. -/
def advanceBit {cfg : Config} (e : Engine cfg) (stepReady : Bool) : Bool := !e.pend || stepReady

/-- The decode word U of the coming edge (R71). -/
def decodeWordOf (s : State) : BitVec 6 :=
  packWord s.ports.rst s.eng.phase s.ports.start
    (advanceBit s.eng s.ports.stepReady) (selectBit s.eng)

/-- The output ports (R39): functions of the registers alone. -/
def outputs {cfg : Config} (e : Engine cfg) : Outputs cfg.n cfg.cw where
  busy := e.phase.busy
  done := e.phase.code == 0b10#2
  resultValid := e.phase.code == 0b10#2 && e.err != ErrCode.div0Reject.code
  quotient := e.q
  remainder := e.a
  errCode := e.err
  stepValid := e.pend
  stepIndex := e.cnt
  stepA := e.a
  stepQ := e.q
  stepCarry := e.c
  stepOp := e.op

/-- STATUS[5:0] (R33): ERR, STEP_VALID, RVALID, DONE, BUSY, the last in bit 0. -/
def statusView {cfg : Config} (e : Engine cfg) : BitVec 6 :=
  e.err ++ BitVec.ofBool (outputs e).stepValid ++ BitVec.ofBool (outputs e).resultValid
    ++ BitVec.ofBool (outputs e).done ++ BitVec.ofBool (outputs e).busy

/-- The Result pair (quotient, remainder), while it is valid (R153). -/
def resultPair {cfg : Config} (e : Engine cfg) : Option (Word cfg.n × Word cfg.n) :=
  if (outputs e).resultValid then some ((outputs e).quotient, (outputs e).remainder) else none

/-- What stops the coming edge (notes/assumptions/7.md): ERR holds its reserved code (R78) and `rst` is not
there to override it (R76). -/
def edgeFault (s : State) : Option Fault :=
  if s.ports.rst then none
  else match ErrCode.ofCode s.eng.err with
    | some _ => none
    | none => some .reservedErr

end Sys2Proof.Machine
end

