-- ==== Sys2Proof/Machine/Ops.lean ====
section
/-! DEFINITION. The named operations over the registers: the iteration function (spec/41_iteration.md R120), starting a
run (spec/40_command.md R100 to R103), one iteration, and ending a run (spec/42_correction.md R150, R151).
The engine takes no exceptions (spec/60_exceptions.md R200): its one run-time condition is the code ERR that
`startRun` writes (R201), so there is no trap entry and no trap return to define. -/

namespace Sys2Proof.Machine

/-- What one iteration yields (R120): the new A and Q, the carry bit, and the operation (1 is shift+add). -/
structure IterOut (n : Nat) where
  a : Word n
  q : Word n
  c : Bool
  op : Bool
  deriving DecidableEq, Repr

/-- R120 step 4: the shifted A plus M, or minus M as `As + 2^N - M`, masked to N bits. -/
def addOrSub {n : Nat} (op : Bool) (as m : Word n) : Word n :=
  if op then maskN n (as.toNat + m.toNat) else maskN n (as.toNat + 2 ^ n - m.toNat)

/-- R120 steps 3 and 5: Q shifted left, its low bit the complement of the new A's sign. -/
def nextQ {n : Nat} (q a' : Word n) : Word n :=
  let qs := maskN n (2 * q.toNat)
  if signFlag a' then qs else maskN n (qs.toNat + 1)

/-- One iteration along a chosen path: the shift, the operation `op`, the quotient bit. -/
def iterWith {n : Nat} (op : Bool) (a q m : Word n) : IterOut n :=
  let a' := addOrSub op (shiftedA a q) m
  ⟨a', nextQ q a', carryBit q, op⟩

/-- The iteration function `nr_iter` (R120): the sign of the shifted A chooses the path. -/
def nrIter {n : Nat} (a q m : Word n) : IterOut n := iterWith (signFlag (shiftedA a q)) a q m

/-- The final restoring addition, `mask_N(A + M)` (R151). -/
def restoreA {n : Nat} (a m : Word n) : Word n := maskN n (a.toNat + m.toNat)

/-- The state with other registers; configuration, ports and host stay. -/
def State.withEngine (s : State) (e : Engine s.cfg) : State := { s with eng := e }

/-- The state with other port values. -/
def State.withPorts (s : State) (l : Line s.cfg.n) : State := { s with ports := l }

/-- The state with another host. -/
def State.withHost (s : State) (h : Collab s.cfg.n) : State := { s with host := h }

/-- A run begins (R103): A is 0, Q the dividend, M the divisor, and ERR says whether it is a normal run. -/
def loadRun (cfg : Config) (d v : Word cfg.n) (code : ErrCode) : Engine cfg where
  a := 0#cfg.n
  q := d
  m := v
  cnt := 0#cfg.cw
  phase := .iter
  pend := false
  c := false
  op := false
  err := code.code

/-- A run is refused (R102): every register is cleared, ERR is DIV0_REJECT and the phase DONE. -/
def rejectRun (cfg : Config) : Engine cfg :=
  { Engine.reset cfg with phase := .done, err := ErrCode.div0Reject.code }

/-- The three cases of DIV (R100, R101, R102). The zero test is on the N-bit divisor (R104). -/
def startRun (cfg : Config) (d v : Word cfg.n) : Engine cfg :=
  if v = 0#cfg.n then
    match cfg.div0Policy with
    | .proceed => loadRun cfg d v .div0Proceed
    | .reject => rejectRun cfg
  else loadRun cfg d v .none

/-- One iteration on the registers (R121, R122): the datapath along the path `op`, the record presented, the
counter advanced, and CORR entered by the N-th iteration (R125). The comparison is on exact numbers (R12). -/
def iterate {cfg : Config} (op : Bool) (e : Engine cfg) : Engine cfg :=
  let r := iterWith op e.a e.q e.m
  { e with
    a := r.a
    q := r.q
    c := r.c
    op := r.op
    cnt := e.cnt + 1#cfg.cw
    pend := true
    phase := if e.cnt.toNat + 1 = cfg.n then .corr else e.phase }

/-- A run ends (R150): the last record is taken and the phase is DONE. -/
def finishRun {cfg : Config} (e : Engine cfg) : Engine cfg := { e with pend := false, phase := .done }

/-- A run ends with the restoring addition (R151). -/
def restoreAndFinish {cfg : Config} (e : Engine cfg) : Engine cfg :=
  { finishRun e with a := restoreA e.a e.m }

end Sys2Proof.Machine
end

