-- ==== Sys2Proof/Machine/Command.lean ====
section
/-! DEFINITION. The command family: DIV and HOLD (spec/40_command.md). -/

namespace Sys2Proof.Machine

/-- HOLD (R105): no register changes. -/
def execHold (s : State) : Host.Outcome State Fault Refusal := .next s

/-- DIV (R100, R101, R102): a run starts, or is refused, with the operands on the ports at this edge. -/
def execDiv (s : State) : Host.Outcome State Fault Refusal :=
  .next (s.withEngine (startRun s.cfg (dividendOperand s) (divisorOperand s)))

end Sys2Proof.Machine
end

