-- ==== Sys2Proof/Machine/Correction.lean ====
section
/-! DEFINITION. The correction family: CORR.NONE and CORR.ADD (spec/42_correction.md). -/

namespace Sys2Proof.Machine

/-- CORR.NONE (R150): A stays, the run is done. -/
def execCorrNone (s : State) : Host.Outcome State Fault Refusal :=
  .next (s.withEngine (finishRun s.eng))

/-- CORR.ADD (R151): M is added to A once, the run is done. -/
def execCorrAdd (s : State) : Host.Outcome State Fault Refusal :=
  .next (s.withEngine (restoreAndFinish s.eng))

end Sys2Proof.Machine
end

