-- ==== Sys2Proof/Machine/Iteration.lean ====
section
/-! DEFINITION. The iteration family: STALL, STEP.SUB and STEP.ADD (spec/41_iteration.md). -/

namespace Sys2Proof.Machine

/-- STALL (R123): no register changes; the pending record stays presented. -/
def execStall (s : State) : Host.Outcome State Fault Refusal := .next s

/-- STEP.SUB (R121): the iteration that subtracts M. -/
def execStepSub (s : State) : Host.Outcome State Fault Refusal :=
  .next (s.withEngine (iterate false s.eng))

/-- STEP.ADD (R122): the iteration that adds M. -/
def execStepAdd (s : State) : Host.Outcome State Fault Refusal :=
  .next (s.withEngine (iterate true s.eng))

end Sys2Proof.Machine
end

