-- ==== Sys2Proof/Machine/Reset.lean ====
section
/-! DEFINITION. RESET (spec/70_reset_and_hazards.md R230). -/

namespace Sys2Proof.Machine

/-- RESET (R230): every register takes its reset value (R36), whatever it held. -/
def execReset (s : State) : Host.Outcome State Fault Refusal :=
  .next (s.withEngine (Engine.reset s.cfg))

end Sys2Proof.Machine
end

