-- ==== Sys2Proof/Machine/Dispatch.lean ====
section
/-! DEFINITION. The meaning of a micro-operation, one arm per constructor. -/

namespace Sys2Proof.Machine

/-- One micro-operation on the state at its edge (spec/30_encoding.md R74). -/
def exec (i : Instr) (s : State) : Host.Outcome State Fault Refusal :=
  match i with
  | .reset _ _ _ _ => Sys2Proof.Machine.execReset s
  | .hold _ _ _ => Sys2Proof.Machine.execHold s
  | .div _ _ _ => Sys2Proof.Machine.execDiv s
  | .stall _ _ _ => Sys2Proof.Machine.execStall s
  | .stepSub _ => Sys2Proof.Machine.execStepSub s
  | .stepAdd _ => Sys2Proof.Machine.execStepAdd s
  | .corrNone _ => Sys2Proof.Machine.execCorrNone s
  | .corrAdd _ => Sys2Proof.Machine.execCorrAdd s

end Sys2Proof.Machine
end

