-- ==== Sys2Proof/Machine/Collaborator.lean ====
section
/-! DEFINITION. The host agent: validation, width selection and the DIV line of a request (spec/43_host_interface.md
R171 to R174), collecting the records (R175), reading the result (R170), presenting values (R176), and the host's turn
after an edge. -/

namespace Sys2Proof.Machine

/-- A division request (R171, R172, R173): the DIV line, or InvalidInput and no DIV. This machine has one
engine, so a width it has no engine for is refused (R177 H1). `step_ready` is 0 on the DIV line, where R174 is silent
and R83 has both DIV and DIVR (DESIGN CHOICE, notes/assumptions/13.md). -/
def requestLine (cfg : Config) (dividend divisor : List Char) (width : Int) :
    Except HostReport (Line cfg.n) :=
  if validOperandText dividend ∧ validOperandText divisor ∧ width = (cfg.n : Int) then
    .ok { Line.idle cfg.n with
      start := true
      dividend := operandOfText cfg.n dividend
      divisor := operandOfText cfg.n divisor }
  else .error .invalidInput

/-- What the host does after an edge: the line it drives, the plan left, and its reports. -/
structure Turn (n : Nat) where
  line : Line n
  plan : List (HostCmd n)
  reports : List HostReport
  deriving DecidableEq, Repr

/-- The host's choice of the next line, from `busy` and `done` as they stand after the edge. A line is driven as it is
(R82). DRAIN drives `ready` while `done = 0` (R83). A valid request drives its DIV line for one edge once `busy = 0`
(R174, R233) and until then waits with `ready` (DESIGN CHOICE, notes/assumptions/13.md); an invalid one is reported at
once and takes no edge (R171, R203). An empty plan drives the line of zeros (DESIGN CHOICE, notes/assumptions/2.md). -/
def nextTurn (cfg : Config) (busy done : Bool) : List (HostCmd cfg.n) → List HostReport → Turn cfg.n
  | [], reports => ⟨Line.idle cfg.n, [], reports⟩
  | .line l :: rest, reports => ⟨l, rest, reports⟩
  | .drain :: rest, reports =>
    if done then nextTurn cfg busy done rest reports else ⟨Line.ready cfg.n, .drain :: rest, reports⟩
  | .divide d v w :: rest, reports =>
    match requestLine cfg d v w with
    | .ok l => if busy then ⟨Line.ready cfg.n, .divide d v w :: rest, reports⟩ else ⟨l, rest, reports⟩
    | .error r => nextTurn cfg busy done rest (reports ++ [r])

/-- The host drives the ports for the coming edge. -/
def driveNext (s : State) : State :=
  let turn := nextTurn s.cfg (outputs s.eng).busy (outputs s.eng).done s.host.plan s.host.reports
  { s with ports := turn.line, host := { s.host with plan := turn.plan, reports := turn.reports } }

/-- The record on the ports, as the host reads it (R124, R175). -/
def presentedRecord {cfg : Config} (e : Engine cfg) : StepRecord cfg.n :=
  let o := outputs e
  ⟨o.stepIndex.toNat, o.stepA, o.stepQ, o.stepCarry, o.stepOp⟩

/-- A record is accepted at an edge with `rst = 0`, `step_valid = 1` and `step_ready = 1` (R124). -/
def acceptsRecord (s : State) : Bool :=
  !s.ports.rst && (outputs s.eng).stepValid && s.ports.stepReady

/-- The records the host holds after an edge (R175): the accepted one is added; a DIV begins a new sequence
and a reset discards a partial one (R231; notes/assumptions/9.md). -/
def collectedRecords (s : State) : List (StepRecord s.cfg.n) :=
  if s.ports.rst then []
  else if s.ports.start && !(outputs s.eng).busy then []
  else if acceptsRecord s then s.host.records ++ [presentedRecord s.eng]
  else s.host.records

/-- The host samples the outputs at the edge. -/
def collect (s : State) : State := { s with host := { s.host with records := collectedRecords s } }

/-- A run is at stake at this edge: one is in progress, or `start` is there to begin one (R38). -/
def runAtEdge (s : State) : Bool := (outputs s.eng).busy || s.ports.start

/-- The outcome on the ports of a run that has ended (R153), with the records collected in it: the Result while it is
valid, else the run was refused. -/
def presentedOutcome {cfg : Config} (e : Engine cfg) (records : List (StepRecord cfg.n)) : RunOutcome cfg.n :=
  match resultPair e with
  | some (q, r) => .result q r (outputs e).errCode records
  | none => .rejected

/-- The host reads the outcome (R170) once for each run, after the edge that ends it: the edge left `done = 1`, and a
run was at stake at it. When it reads is the model's choice (DESIGN CHOICE, notes/assumptions/25.md). -/
def readOutcome (atStake : Bool) (t : State) : State :=
  let read := if atStake && (outputs t.eng).done then [presentedOutcome t.eng t.host.records] else []
  { t with host := { t.host with outcomes := t.host.outcomes ++ read } }

/-- A plan given to the host from outside: it drives the plan's first line (notes/assumptions/15.md). -/
def loadPlan (s : State) (plan : List (HostCmd s.cfg.n)) : State :=
  driveNext { s with host := { s.host with plan := plan } }

/-- A value as the host presents it: its padded binary text and its decimal text (R176). -/
structure PresentedValue where
  binary : List Char
  decimal : List Char
  deriving DecidableEq, Repr

/-- R176: left-padded binary and plain decimal. -/
def presentValue {n : Nat} (w : Word n) : PresentedValue := ⟨binaryText w, Nat.toDigits 10 w.toNat⟩

/-- The label of `step_op` (R79, R176). -/
def opLabel (op : Bool) : String := if op then "shift+add" else "shift+subtract"

/-- A Result as the host presents it (R176). -/
structure PresentedResult where
  quotient : PresentedValue
  remainder : PresentedValue
  deriving DecidableEq, Repr

/-- R176: quotient and remainder in both forms. -/
def presentResult {n : Nat} (quotient remainder : Word n) : PresentedResult :=
  ⟨presentValue quotient, presentValue remainder⟩

/-- A record as the host presents it (R176). R176 gives no form for `step_carry`: it is kept as the bit it is
(DESIGN CHOICE, notes/assumptions/24.md). -/
structure PresentedRecord where
  index : List Char
  a : PresentedValue
  q : PresentedValue
  carry : Bool
  op : String
  deriving DecidableEq, Repr

/-- R176: the index in decimal, A and Q in both forms, the operation's label. -/
def presentRecord {n : Nat} (r : StepRecord n) : PresentedRecord :=
  ⟨Nat.toDigits 10 r.index, presentValue r.a, presentValue r.q, r.carry, opLabel r.op⟩

end Sys2Proof.Machine
end

