-- ==== Sys2Proof/Machine/Place.lean ====
section
/-! DEFINITION. Putting a decode word in front of the engine. The engine fetches nothing: U is made of the inputs and the
registers at the edge (spec/30_encoding.md R70, R71), so placing a word means setting those. -/

namespace Sys2Proof.Machine

/-- The registers with `sel` at a given value: one bit of A or Q is flipped where `sel` reads it (R72). At
rest `sel` is 0 and nothing is changed. -/
def placeSelect {cfg : Config} (e : Engine cfg) (sel : Bool) : Engine cfg :=
  if selectBit e = sel then e
  else match e.phase with
    | .iter =>
      if cfg.n = 1 then { e with q := e.q ^^^ BitVec.twoPow cfg.n 0 }
      else { e with a := e.a ^^^ BitVec.twoPow cfg.n (cfg.n - 2) }
    | .corr => { e with a := e.a ^^^ BitVec.twoPow cfg.n (cfg.n - 1) }
    | .idle => e
    | .done => e

/-- The state whose coming edge has the decode word `u` (notes/assumptions/15.md, 20.md). `adv = 1` is placed
as `step_ready = 1`, `adv = 0` as a pending record that is not accepted. A reserved ERR that would stop the
edge is cleared, unless `rst` overrides it. -/
def placeWord (s : State) (u : BitVec 6) : State :=
  let e : Engine s.cfg := { s.eng with
    phase := wordPhase u
    pend := if u.getLsbD 1 then s.eng.pend else true
    err := if (ErrCode.ofCode s.eng.err).isNone && !u.getLsbD 5 then ErrCode.none.code else s.eng.err }
  { s with
    eng := placeSelect e (u.getLsbD 0)
    ports := { s.ports with rst := u.getLsbD 5, start := u.getLsbD 2, stepReady := u.getLsbD 1 } }

end Sys2Proof.Machine
end

