-- ==== Sys2Proof/Machine/Step.lean ====
section
/-! DEFINITION. One rising edge of `clk` (spec/30_encoding.md R70; spec/00_scope.md R14). -/

namespace Sys2Proof.Machine

/-- One edge: the micro-operation that U selects (R70), on the state with the record accepted at this edge
collected by the host; then the host reads the outcome of a run that ended and drives the ports for the next edge
(notes/assumptions/1.md). A reserved ERR stops it (R78). -/
def step (s : State) : Host.Outcome State Fault Refusal :=
  match edgeFault s with
  | some f => .fault f
  | none =>
    match exec (decode (decodeWordOf s)) (collect s) with
    | .next t => .next (driveNext (readOutcome (runAtEdge s) t))
    | .fault f => .fault f
    | .refused r => .refused r

/-- The state whose next step runs the decode word `w` of spec/opcode_table.json (notes/assumptions/15.md). -/
def State.withFetchWord (s : State) (_nbits w : Nat) : State := placeWord s (BitVec.ofNat 6 w)

end Sys2Proof.Machine
end

