-- ==== Sys2Proof/Machine/Divide.lean ====
section
/-! DEFINITION. The functional level: `nr_divide`, the reference semantics of one run (spec/42_correction.md R154). -/

namespace Sys2Proof.Machine

/-- A, Q, the carry bit and the operation after `i` iterations of the loop of R154, from `A_0 = 0` and
`Q_0 = D` (R103). Before the first iteration C and OP are 0, as DIV leaves them (R100). -/
def iterAt {n : Nat} (d m : Word n) : Nat → IterOut n
  | 0 => ⟨0#n, d, false, false⟩
  | i + 1 => nrIter (iterAt d m i).a (iterAt d m i).q m

/-- Record `i`, for `i ≥ 1` (R154, step 6). -/
def recordAt {n : Nat} (d m : Word n) (i : Nat) : StepRecord n :=
  let r := iterAt d m i
  ⟨i, r.a, r.q, r.c, r.op⟩

/-- The records 1 to `k`, in order (R154). -/
def stepsUpTo {n : Nat} (d m : Word n) (k : Nat) : List (StepRecord n) :=
  (List.range k).map fun i => recordAt d m (i + 1)

/-- The final correction (R154): M is added once if A is negative. -/
def correctedA {n : Nat} (a m : Word n) : Word n := if signFlag a then restoreA a m else a

/-- What `nr_divide` answers (R154). -/
inductive DivideOutcome (n : Nat) where
  /-- `raise InvalidBitWidth` (R202). -/
  | invalidBitWidth
  /-- The zero divisor is refused (R102). -/
  | rejected
  /-- The Result and the step records. -/
  | result (quotient remainder : Word n) (steps : List (StepRecord n))
  deriving DecidableEq, Repr

/-- `nr_divide(dividend, divisor, n; DIV0_POLICY)` (R154). -/
def nrDivide (dividend divisor n : Nat) (policy : Div0Policy) : DivideOutcome n :=
  if n < 1 then .invalidBitWidth
  else
    let d := maskN n dividend
    let m := maskN n divisor
    if m = 0#n ∧ policy = .reject then .rejected
    else
      let last := iterAt d m n
      .result last.q (correctedA last.a m) (stepsUpTo d m n)

end Sys2Proof.Machine
end

