-- ==== Sys2Proof/Machine/Elaborate.lean ====
section
/-! DEFINITION. Elaborating an engine (spec/60_exceptions.md R202; spec/00_scope.md R7, R8, R9). -/

namespace Sys2Proof.Machine

/-- Why an engine cannot be elaborated. -/
inductive ElaborationError where
  /-- `N ≤ 0` (R202). -/
  | invalidBitWidth
  /-- SUPPORTED_WIDTHS is no set of positive integers in its rising form (R8). -/
  | badWidthSet
  /-- `N` is not in SUPPORTED_WIDTHS (R8). -/
  | unsupportedWidth
  deriving DecidableEq, Repr

/-- The configuration of an engine of width `n`, or why there is none (R202, R8). -/
def elaborate (n : Int) (widths : List Nat) (policy : Div0Policy) : Except ElaborationError Config :=
  if n ≤ 0 then .error .invalidBitWidth
  else if h : 1 ≤ n.toNat ∧ widths.Pairwise (· < ·) ∧ (∀ w ∈ widths, 1 ≤ w) then
    if hm : n.toNat ∈ widths then .ok ⟨n.toNat, widths, policy, h.1, h.2.1, h.2.2, hm⟩
    else .error .unsupportedWidth
  else .error .badWidthSet

end Sys2Proof.Machine
end

