-- ==== Sys2Proof/Machine/Stimulus.lean ====
section
/-! DEFINITION. The stimulus notation, the assembler syntax of this engine: the input word I, the tokens and text of a
line (spec/30_encoding.md R82), and the pseudo-instructions (R83). -/

namespace Sys2Proof.Machine

/-- The input word `I = {rst, start, step_ready, dividend, divisor}`, 2N+3 bits, `rst` the most
significant (R82). -/
def Line.encode {n : Nat} (l : Line n) : BitVec (2 * n + 3) :=
  BitVec.ofNat (2 * n + 3)
    (l.rst.toNat * 2 ^ (2 * n + 2) + l.start.toNat * 2 ^ (2 * n + 1) + l.stepReady.toNat * 2 ^ (2 * n)
      + l.dividend.toNat * 2 ^ n + l.divisor.toNat)

/-- The line of an input word (R82). -/
def Line.decode {n : Nat} (w : BitVec (2 * n + 3)) : Line n where
  rst := w.getLsbD (2 * n + 2)
  start := w.getLsbD (2 * n + 1)
  stepReady := w.getLsbD (2 * n)
  dividend := w.extractLsb' n n
  divisor := w.extractLsb' 0 n

/-- One token of a line (R82). -/
inductive Token (n : Nat) where
  | rst
  | start
  | dividend (b : Word n)
  | divisor (b : Word n)
  | ready
  | dash
  deriving DecidableEq, Repr

/-- Which token it is, without its bits. -/
def Token.kind {n : Nat} : Token n → Nat
  | .rst => 0
  | .start => 1
  | .dividend _ => 2
  | .divisor _ => 3
  | .ready => 4
  | .dash => 5

/-- `<bits>`: exactly N binary digits, most significant first (R82). -/
def readBits (n : Nat) (t : List Char) : Option (Word n) :=
  if t.length = n ∧ validOperandText t = true then some (operandOfText n t) else none

/-- The text of a token (R82). -/
def Token.text {n : Nat} : Token n → List Char
  | .rst => ['r', 's', 't']
  | .start => ['s', 't', 'a', 'r', 't']
  | .dividend b => 'D' :: '=' :: binaryText b
  | .divisor b => 'V' :: '=' :: binaryText b
  | .ready => ['r', 'e', 'a', 'd', 'y']
  | .dash => ['-']

/-- The token a text stands for, if any (R82). -/
def Token.read (n : Nat) (t : List Char) : Option (Token n) :=
  match t with
  | 'D' :: '=' :: bits => (readBits n bits).map .dividend
  | 'V' :: '=' :: bits => (readBits n bits).map .divisor
  | _ =>
    if t = ['r', 's', 't'] then some .rst
    else if t = ['s', 't', 'a', 'r', 't'] then some .start
    else if t = ['r', 'e', 'a', 'd', 'y'] then some .ready
    else if t = ['-'] then some .dash
    else none

/-- A line with one token added to it; an absent token leaves its input 0 (R82). -/
def Line.addToken {n : Nat} (l : Line n) : Token n → Line n
  | .rst => { l with rst := true }
  | .start => { l with start := true }
  | .dividend b => { l with dividend := b }
  | .divisor b => { l with divisor := b }
  | .ready => { l with stepReady := true }
  | .dash => l

/-- The line of a list of tokens (R82): one or more, `-` only alone. A token given twice is refused
(DESIGN CHOICE, notes/assumptions/12.md). -/
def Line.ofTokens {n : Nat} (ts : List (Token n)) : Option (Line n) :=
  if ts = [] then none
  else if ts.length ≠ 1 ∧ Token.dash ∈ ts then none
  else if (ts.map Token.kind).Nodup then some (ts.foldl Line.addToken (Line.idle n))
  else none

/-- The tokens of a line: those whose input is not 0, or `-` (R82). -/
def Line.tokens {n : Nat} (l : Line n) : List (Token n) :=
  let ts := (if l.rst then [.rst] else []) ++ (if l.start then [.start] else [])
    ++ (if l.dividend = 0#n then [] else [.dividend l.dividend])
    ++ (if l.divisor = 0#n then [] else [.divisor l.divisor])
    ++ (if l.stepReady then [.ready] else [])
  if ts = [] then [.dash] else ts

/-- A text cut at its spaces; two spaces in a row leave an empty piece. -/
def splitSpaces : List Char → List (List Char)
  | [] => [[]]
  | ch :: rest =>
    if ch = ' ' then [] :: splitSpaces rest
    else match splitSpaces rest with
      | [] => [[ch]]
      | piece :: pieces => (ch :: piece) :: pieces

/-- Pieces joined by single spaces. -/
def joinSpaces : List (List Char) → List Char
  | [] => []
  | [piece] => piece
  | piece :: next :: rest => piece ++ ' ' :: joinSpaces (next :: rest)

/-- The text of a line (R82). -/
def Line.text {n : Nat} (l : Line n) : List Char := joinSpaces (l.tokens.map Token.text)

/-- The line a text stands for: tokens separated by spaces (R82). Leading, trailing and repeated spaces are accepted
and mean nothing, where R82 says only that spaces separate tokens (DESIGN CHOICE, notes/assumptions/12.md). -/
def Line.read (n : Nat) (t : List Char) : Option (Line n) :=
  match ((splitSpaces t).filter (fun piece => !piece.isEmpty)).mapM (Token.read n) with
  | some ts => Line.ofTokens ts
  | none => none

/-- The pseudo-instructions (R83). -/
inductive Pseudo (n : Nat) where
  | reset
  | div (d v : Word n)
  | divr (d v : Word n)
  | accept
  | wait
  | run (k : Nat)
  | drain
  deriving DecidableEq, Repr

/-- The expansion of a pseudo-instruction (R83). DRAIN has no fixed length: it stays a command of the plan,
and the host's turn unrolls it. -/
def Pseudo.expand {n : Nat} : Pseudo n → List (HostCmd n)
  | .reset => [.line { Line.idle n with rst := true }]
  | .div d v => [.line { Line.idle n with start := true, dividend := d, divisor := v }]
  | .divr d v => [.line { Line.ready n with start := true, dividend := d, divisor := v }]
  | .accept => [.line (Line.ready n)]
  | .wait => [.line (Line.idle n)]
  | .run k => List.replicate k (.line (Line.ready n))
  | .drain => [.drain]

/-- A program of pseudo-instructions as a plan. -/
def expandProgram {n : Nat} (p : List (Pseudo n)) : List (HostCmd n) := p.flatMap Pseudo.expand

end Sys2Proof.Machine
end

