-- ==== Sys2Proof/Safety.lean ====
section
/-! DEFINITION. What a safe run is, in the terms the statements use: the invariants of spec/10_state.md R35, the
agreement of a run with `nr_divide` (spec/42_correction.md R155), who writes which register (spec/10_state.md R21 to
R30), and how far a run still has to go (spec/70_reset_and_hazards.md R240). -/

namespace Sys2Proof.Machine

/-- The nine invariants of R35, one field each, in its order. -/
structure EngineInv {cfg : Config} (e : Engine cfg) : Prop where
  restHasNoRecord : e.phase = .idle ∨ e.phase = .done → e.pend = false
  iterBelowN : e.phase = .iter → e.cnt.toNat < cfg.n
  corrAtN : e.phase = .corr → e.cnt.toNat = cfg.n
  rejectedIsClear : e.phase = .done → e.err = 0b10#2 →
    e.cnt = 0#cfg.cw ∧ e.a = 0#cfg.n ∧ e.q = 0#cfg.n ∧ e.m = 0#cfg.n ∧ e.c = false ∧ e.op = false
  doneAtN : e.phase = .done → e.err ≠ 0b10#2 → e.cnt.toNat = cfg.n
  pendingInRun : e.pend = true → 1 ≤ e.cnt.toNat ∧ (e.phase = .iter ∨ e.phase = .corr)
  idleIsReset : e.phase = .idle → e = Engine.reset cfg
  errNotReserved : e.err ≠ 0b11#2
  warnedDivisorIsZero : e.err = 0b01#2 → e.m = 0#cfg.n

/-- R35 made inductive: beside the nine, ERR = DIV0_REJECT stands in DONE only, since only a refused DIV
writes it, which enters DONE, and the next micro-operation that leaves DONE rewrites ERR (R30, R102;
notes/assumptions/22.md). Without it a state in CORR with ERR = 10, which no run reaches, would break the fourth. -/
def SafeEngine {cfg : Config} (e : Engine cfg) : Prop :=
  EngineInv e ∧ (e.err = 0b10#2 → e.phase = .done)

/-- The registers and the records the host has collected are those of `nr_divide` on the dividend `d` and
the divisor in M (R155). In a run the last record is still on the port: only before the first iteration is
there none (R124). -/
def RunTracks {cfg : Config} (e : Engine cfg) (records : List (StepRecord cfg.n)) (d : Word cfg.n) : Prop :=
  match e.phase with
  | .idle => records = []
  | .iter | .corr =>
    (⟨e.a, e.q, e.c, e.op⟩ : IterOut cfg.n) = iterAt d e.m e.cnt.toNat ∧
      records = stepsUpTo d e.m (e.cnt.toNat - e.pend.toNat) ∧
      (e.pend = false → e.cnt.toNat = 0)
  | .done =>
    if e.err = 0b10#2 then records = []
    else
      (⟨e.a, e.q, e.c, e.op⟩ : IterOut cfg.n) =
          { iterAt d e.m cfg.n with a := correctedA (iterAt d e.m cfg.n).a e.m } ∧
        records = stepsUpTo d e.m cfg.n

/-- The invariant of the whole machine: R35 in its inductive form, and the run in progress (or the last one) is a run of
`nr_divide` on some dividend. -/
def MachineInv (s : State) : Prop := SafeEngine s.eng ∧ ∃ d, RunTracks s.eng s.host.records d

/-- `k` steps, stopping at the first that does not answer a next state. -/
def stepN : Nat → State → Host.Outcome State Fault Refusal
  | 0, s => .next s
  | k + 1, s =>
    match step s with
    | .next t => stepN k t
    | .fault f => .fault f
    | .refused r => .refused r

/-- The micro-operations due before the run in progress is done (R240): the iterations left and the
correction; none at rest. -/
def remaining {cfg : Config} (e : Engine cfg) : Nat :=
  match e.phase with
  | .iter => cfg.n - e.cnt.toNat + 1
  | .corr => 1
  | .idle => 0
  | .done => 0

/-- The micro-operations that load or clear every register: DIV and RESET. -/
def writesAll : Instr → Bool
  | .reset _ _ _ _ | .div _ _ _ => true
  | .hold _ _ _ | .stall _ _ _ | .stepSub _ | .stepAdd _ | .corrNone _ | .corrAdd _ => false

/-- The iterations, STEP.SUB and STEP.ADD. -/
def isIteration : Instr → Bool
  | .stepSub _ | .stepAdd _ => true
  | .reset _ _ _ _ | .hold _ _ _ | .div _ _ _ | .stall _ _ _ | .corrNone _ | .corrAdd _ => false

/-- The corrections, CORR.NONE and CORR.ADD. -/
def isCorrection : Instr → Bool
  | .corrNone _ | .corrAdd _ => true
  | .reset _ _ _ _ | .hold _ _ _ | .div _ _ _ | .stall _ _ _ | .stepSub _ | .stepAdd _ => false

/-- The correction that adds, CORR.ADD. -/
def isRestoring : Instr → Bool
  | .corrAdd _ => true
  | .reset _ _ _ _ | .hold _ _ _ | .div _ _ _ | .stall _ _ _ | .stepSub _ | .stepAdd _ | .corrNone _ => false

end Sys2Proof.Machine
end

