-- ==== Sys2Proof/Certificates/Slice0/Obligations.lean ====
section
/-! DEFINITION. The statements for the provers, from the numbered rules of spec/. Every one ranges over every
configuration (N, SUPPORTED_WIDTHS, DIV0_POLICY) and, where it speaks of a state, over every state. -/

open Sys2Proof Sys2Proof.Machine

/-! ## Encoding -/

/-- R74, R75: decoding the word of a well-formed micro-operation gives it back, and every one of the 64 words is
the word of the micro-operation it decodes to. -/
def Obligations.DecodeEncodeRoundTrip : Prop :=
  (∀ i : Instr, i.wf = true → decode (encode i) = i) ∧
  (∀ u : BitVec 6, (decode u).wf = true ∧ encode (decode u) = u)

/-- R75: each of the 64 values of U matches exactly one (match, mask) row of R74, the row of the micro-operation
the decoder answers. -/
def Obligations.EveryWordMatchesOneRow : Prop :=
  opcodeRows.length = 8 ∧ ∀ u : BitVec 6, opcodeRows.filter (·.matchesWord u) = [(decode u).row]

/-- R74 on words written out from its patterns, one per row with its `x` bits set, as the table's numbers. -/
def Obligations.TabulatedWordsDecode : Prop :=
  decodeTableWord 8 0b111011 = some (.reset .corr false true true) ∧
  decodeTableWord 8 0b010011 = some (.hold .done true true) ∧
  decodeTableWord 8 0b010111 = some (.div .done true true) ∧
  decodeTableWord 8 0b011101 = some (.stall .corr true true) ∧
  decodeTableWord 8 0b001110 = some (.stepSub true) ∧
  decodeTableWord 8 0b001111 = some (.stepAdd true) ∧
  decodeTableWord 8 0b011110 = some (.corrNone true) ∧
  decodeTableWord 8 0b011111 = some (.corrAdd true)

/-- R71, R73, R77: the fields of the decode word of an edge. -/
def Obligations.DecodeWordFields : Prop :=
  (∀ s : State,
    (decodeWordOf s).getLsbD 5 = s.ports.rst ∧
    (decodeWordOf s).extractLsb' 3 2 = s.eng.phase.code ∧
    (decodeWordOf s).getLsbD 2 = s.ports.start ∧
    ((decodeWordOf s).getLsbD 1 = true ↔ s.eng.pend = false ∨ s.ports.stepReady = true) ∧
    (decodeWordOf s).getLsbD 0 = selectBit s.eng) ∧
  Phase.code .idle = 0b00#2 ∧ Phase.code .iter = 0b01#2 ∧ Phase.code .corr = 0b11#2 ∧ Phase.code .done = 0b10#2

/-- R72: what `sel` reads in each phase. -/
def Obligations.SelectBitReadsTheSign : Prop :=
  ∀ (cfg : Config) (e : Engine cfg),
    (e.phase = .iter → selectBit e =
      (BitVec.ofNat cfg.n (2 * e.a.toNat + (e.q.getLsbD (cfg.n - 1)).toNat)).getLsbD (cfg.n - 1)) ∧
    (e.phase = .iter → 2 ≤ cfg.n → selectBit e = e.a.getLsbD (cfg.n - 2)) ∧
    (e.phase = .iter → cfg.n = 1 → selectBit e = e.q.getLsbD 0) ∧
    (e.phase = .corr → selectBit e = e.a.getLsbD (cfg.n - 1)) ∧
    (e.phase = .idle ∨ e.phase = .done → selectBit e = false)

/-- The model's placing of a decode word (notes/assumptions/15.md, 20.md): the coming edge has that word and is not
stopped. At rest `sel` is 0 (R72), so words with `sel = 1` at rest are left out. -/
def Obligations.PlacedWordIsTheNextWord : Prop :=
  ∀ (s : State) (nbits w : Nat), w < 64 →
    ((wordPhase (BitVec.ofNat 6 w)).atRest = true → w % 2 = 0) →
    decodeWordOf (s.withFetchWord nbits w) = BitVec.ofNat 6 w ∧ edgeFault (s.withFetchWord nbits w) = none

/-- R82: an input word decodes to the line it encodes, `rst` is its most significant bit, and the spec's example. -/
def Obligations.InputWordRoundTrip : Prop :=
  (∀ (n : Nat) (l : Line n), Line.decode l.encode = l ∧
    l.encode.toNat = l.rst.toNat * 2 ^ (2 * n + 2) + l.start.toNat * 2 ^ (2 * n + 1)
      + l.stepReady.toNat * 2 ^ (2 * n) + l.dividend.toNat * 2 ^ n + l.divisor.toNat) ∧
  (∀ (n : Nat) (w : BitVec (2 * n + 3)), (Line.decode (n := n) w).encode = w) ∧
  (⟨false, true, false, 0b1011#4, 0b0011#4⟩ : Line 4).encode.toNat = 0x2B3

/-- R82: the text of a line reads back as that line. -/
def Obligations.LineTextRoundTrip : Prop :=
  ∀ (n : Nat) (l : Line n), 1 ≤ n → Line.read n l.text = some l

/-! ## The edge -/

/-- R70: an edge runs the micro-operation that U selects. That the host's acts stand in the same step is the model's
choice (notes/assumptions/1.md): before it the host collects the accepted record, which changes only its records;
after it the host reads the outcome of a run that ended, which changes only its outcomes (notes/assumptions/25.md), and
drives the next line, which changes only the ports, the plan and the reports. -/
def Obligations.StepRunsDecodedInstruction : Prop :=
  (∀ s t : State, s.ports.rst = true ∨ s.eng.err ≠ 0b11#2 →
    exec (decode (decodeWordOf s)) (collect s) = .next t →
      step s = .next (driveNext (readOutcome (runAtEdge s) t))) ∧
  (∀ s : State, ∃ r, collect s = { s with host := { s.host with records := r } }) ∧
  (∀ (b : Bool) (s : State), ∃ o, readOutcome b s = { s with host := { s.host with outcomes := o } }) ∧
  (∀ s : State, ∃ l p r,
    driveNext s = { s with ports := l, host := { s.host with plan := p, reports := r } })

/-- R78 with the model's choice of where ERR is read (notes/assumptions/7.md): an edge stops exactly when ERR is 11
and `rst` is 0, with the one fault; it is never refused. -/
def Obligations.OnlyReservedErrStops : Prop :=
  ∀ s : State,
    ((s.ports.rst = true ∨ s.eng.err ≠ 0b11#2) → ∃ t, step s = .next t) ∧
    (s.ports.rst = false → s.eng.err = 0b11#2 → step s = .fault .reservedErr) ∧
    (∀ r, step s ≠ .refused r)

/-- R34: no edge changes the configuration. -/
def Obligations.NoStepChangesConfiguration : Prop :=
  ∀ s t : State, step s = .next t → t.cfg = s.cfg

/-! ## What each micro-operation does -/

/-- R230, R76: with `rst` the micro-operation is RESET in every state, and every register takes its reset value. -/
def Obligations.ResetClearsEveryRegister : Prop :=
  (∀ (s : State) (p : Phase) (st ad se : Bool),
    exec (.reset p st ad se) s = .next { s with eng :=
      { a := 0#_, q := 0#_, m := 0#_, cnt := 0#_, phase := .idle, pend := false, c := false, op := false,
        err := 0b00#2 } }) ∧
  (∀ s : State, s.ports.rst = true →
    (∃ p st ad se, decode (decodeWordOf s) = .reset p st ad se) ∧
    ∃ l h, step s = .next ⟨s.cfg,
      { a := 0#_, q := 0#_, m := 0#_, cnt := 0#_, phase := .idle, pend := false, c := false, op := false,
        err := 0b00#2 }, l, h⟩)

/-- R231, with the model's choice that the host then drops the partial sequence (notes/assumptions/9.md): a record
pending at a reset edge is withdrawn and not accepted, even with `step_ready = 1`. -/
def Obligations.ResetWithdrawsPendingRecord : Prop :=
  ∀ s : State, s.ports.rst = true → ∃ e l h, step s = .next ⟨s.cfg, e, l, h⟩ ∧
    (outputs e).stepValid = false ∧ (outputs e).resultValid = false ∧ h.records = []

/-- R105: HOLD is selected at rest without `start`, and no register changes. -/
def Obligations.HoldChangesNothing : Prop :=
  (∀ s : State, s.ports.rst = false → s.eng.phase = .idle ∨ s.eng.phase = .done → s.ports.start = false →
    ∃ ad se, decode (decodeWordOf s) = .hold s.eng.phase ad se) ∧
  (∀ (s : State) (p : Phase) (ad se : Bool), exec (.hold p ad se) s = .next s)

/-- R100: DIV with a non-zero divisor. -/
def Obligations.DivNonzeroStartsRun : Prop :=
  (∀ s : State, s.ports.rst = false → s.eng.phase = .idle ∨ s.eng.phase = .done → s.ports.start = true →
    ∃ ad se, decode (decodeWordOf s) = .div s.eng.phase ad se) ∧
  (∀ s : State, s.eng.phase = .iter ∨ s.eng.phase = .corr → ∀ p ad se, decode (decodeWordOf s) ≠ .div p ad se) ∧
  (∀ (s : State) (p : Phase) (ad se : Bool), s.ports.divisor ≠ 0#_ →
    exec (.div p ad se) s = .next { s with eng :=
      { a := 0#_, q := s.ports.dividend, m := s.ports.divisor, cnt := 0#_, phase := .iter, pend := false,
        c := false, op := false, err := 0b00#2 } })

/-- R101: DIV with a zero divisor under PROCEED. -/
def Obligations.DivZeroProceeds : Prop :=
  ∀ (s : State) (p : Phase) (ad se : Bool), s.ports.divisor = 0#_ → s.cfg.div0Policy = .proceed →
    exec (.div p ad se) s = .next { s with eng :=
      { a := 0#_, q := s.ports.dividend, m := 0#_, cnt := 0#_, phase := .iter, pend := false, c := false,
        op := false, err := 0b01#2 } }

/-- R102: DIV with a zero divisor under REJECT; no record, no result, and the next DIV is accepted at the very next
edge. -/
def Obligations.DivZeroRejects : Prop :=
  (∀ (s : State) (p : Phase) (ad se : Bool), s.ports.divisor = 0#_ → s.cfg.div0Policy = .reject →
    ∃ e, exec (.div p ad se) s = .next { s with eng := e } ∧
      e = { a := 0#_, q := 0#_, m := 0#_, cnt := 0#_, phase := .done, pend := false, c := false, op := false,
            err := 0b10#2 } ∧
      (outputs e).done = true ∧ (outputs e).resultValid = false ∧ (outputs e).stepValid = false ∧
      (∀ (l : Line s.cfg.n) (h : Collab s.cfg.n), l.rst = false → l.start = true →
        ∃ ad' se', decode (decodeWordOf ⟨s.cfg, e, l, h⟩) = .div .done ad' se'))

/-- R121: STEP.SUB, in exact arithmetic on the values of the registers; a record pending at its edge is accepted. -/
def Obligations.StepSubIterates : Prop :=
  (∀ s : State, s.ports.rst = false → s.eng.phase = .iter → s.eng.pend = false ∨ s.ports.stepReady = true →
    (2 * s.eng.a.toNat + (s.eng.q.getLsbD (s.cfg.n - 1)).toNat) % 2 ^ s.cfg.n < 2 ^ (s.cfg.n - 1) →
    decode (decodeWordOf s) = .stepSub s.ports.start) ∧
  (∀ s : State, s.eng.phase = .iter → 2 ≤ s.cfg.n → s.eng.a = 0#_ →
    ∀ st, decode (decodeWordOf s) ≠ .stepAdd st) ∧
  (∀ (s : State) (st : Bool), decode (decodeWordOf s) = .stepSub st → s.eng.pend = true → acceptsRecord s = true) ∧
  (∀ (s : State) (st : Bool), ∃ e : Engine s.cfg, exec (.stepSub st) s = .next { s with eng := e } ∧
    e.a.toNat = ((2 * s.eng.a.toNat + (s.eng.q.getLsbD (s.cfg.n - 1)).toNat) % 2 ^ s.cfg.n
      + 2 ^ s.cfg.n - s.eng.m.toNat) % 2 ^ s.cfg.n ∧
    e.q.toNat = (2 * s.eng.q.toNat) % 2 ^ s.cfg.n + (if e.a.toNat < 2 ^ (s.cfg.n - 1) then 1 else 0) ∧
    e.c = s.eng.q.getLsbD (s.cfg.n - 1) ∧ e.op = false ∧ e.cnt = s.eng.cnt + 1#_ ∧ e.pend = true ∧
    e.phase = (if s.eng.cnt.toNat + 1 = s.cfg.n then .corr else s.eng.phase) ∧
    e.m = s.eng.m ∧ e.err = s.eng.err)

/-- R122: STEP.ADD, in exact arithmetic on the values of the registers; a record pending at its edge is accepted. -/
def Obligations.StepAddIterates : Prop :=
  (∀ s : State, s.ports.rst = false → s.eng.phase = .iter → s.eng.pend = false ∨ s.ports.stepReady = true →
    2 ^ (s.cfg.n - 1) ≤ (2 * s.eng.a.toNat + (s.eng.q.getLsbD (s.cfg.n - 1)).toNat) % 2 ^ s.cfg.n →
    decode (decodeWordOf s) = .stepAdd s.ports.start) ∧
  (∀ (s : State) (st : Bool), decode (decodeWordOf s) = .stepAdd st → s.eng.pend = true → acceptsRecord s = true) ∧
  (∀ (s : State) (st : Bool), ∃ e : Engine s.cfg, exec (.stepAdd st) s = .next { s with eng := e } ∧
    e.a.toNat = ((2 * s.eng.a.toNat + (s.eng.q.getLsbD (s.cfg.n - 1)).toNat) % 2 ^ s.cfg.n
      + s.eng.m.toNat) % 2 ^ s.cfg.n ∧
    e.q.toNat = (2 * s.eng.q.toNat) % 2 ^ s.cfg.n + (if e.a.toNat < 2 ^ (s.cfg.n - 1) then 1 else 0) ∧
    e.c = s.eng.q.getLsbD (s.cfg.n - 1) ∧ e.op = true ∧ e.cnt = s.eng.cnt + 1#_ ∧ e.pend = true ∧
    e.phase = (if s.eng.cnt.toNat + 1 = s.cfg.n then .corr else s.eng.phase) ∧
    e.m = s.eng.m ∧ e.err = s.eng.err)

/-- R123: STALL is selected in a run while a record is pending and not accepted, whatever `start` is, and no
register changes. -/
def Obligations.StallChangesNothing : Prop :=
  (∀ s : State, s.ports.rst = false → s.eng.phase = .iter ∨ s.eng.phase = .corr → s.eng.pend = true →
    s.ports.stepReady = false → ∃ se, decode (decodeWordOf s) = .stall s.eng.phase s.ports.start se) ∧
  (∀ (s : State) (p : Phase) (st se : Bool), exec (.stall p st se) s = .next s)

/-- R150: CORR.NONE; a record pending at its edge is accepted. -/
def Obligations.CorrNoneFinishes : Prop :=
  (∀ s : State, s.ports.rst = false → s.eng.phase = .corr → s.eng.pend = false ∨ s.ports.stepReady = true →
    s.eng.a.toNat < 2 ^ (s.cfg.n - 1) → decode (decodeWordOf s) = .corrNone s.ports.start) ∧
  (∀ (s : State) (st : Bool), decode (decodeWordOf s) = .corrNone st → s.eng.pend = true → acceptsRecord s = true) ∧
  (∀ (s : State) (st : Bool),
    exec (.corrNone st) s = .next { s with eng := { s.eng with pend := false, phase := .done } })

/-- R151: CORR.ADD; a record pending at its edge is accepted. -/
def Obligations.CorrAddRestores : Prop :=
  (∀ s : State, s.ports.rst = false → s.eng.phase = .corr → s.eng.pend = false ∨ s.ports.stepReady = true →
    2 ^ (s.cfg.n - 1) ≤ s.eng.a.toNat → decode (decodeWordOf s) = .corrAdd s.ports.start) ∧
  (∀ (s : State) (st : Bool), decode (decodeWordOf s) = .corrAdd st → s.eng.pend = true → acceptsRecord s = true) ∧
  (∀ (s : State) (st : Bool), ∃ a' : Word s.cfg.n,
    exec (.corrAdd st) s = .next { s with eng := { s.eng with a := a', pend := false, phase := .done } } ∧
    a'.toNat = (s.eng.a.toNat + s.eng.m.toNat) % 2 ^ s.cfg.n)

/-- R206: the iterations and corrections raise no error under any operands: they answer a next state and leave ERR
as it was. -/
def Obligations.ArithmeticNeverFails : Prop :=
  ∀ (i : Instr) (s : State), isIteration i = true ∨ isCorrection i = true →
    ∃ e : Engine s.cfg, exec i s = .next { s with eng := e } ∧ e.err = s.eng.err

/-! ## Frames -/

/-- The frame of every micro-operation: configuration, ports and host are as before; HOLD and STALL change no
register (R105, R123). -/
def Obligations.ExecChangesOnlyRegisters : Prop :=
  ∀ (i : Instr) (s t : State), exec i s = .next t → ∃ e : Engine s.cfg, t = { s with eng := e } ∧
    (writesAll i = false → isIteration i = false → isCorrection i = false → e = s.eng)

/-- R21, R22, R23: which micro-operations write A, Q and M. -/
def Obligations.AlgorithmicRegisterWriters : Prop :=
  ∀ (i : Instr) (s t : State), exec i s = .next t → ∃ e : Engine s.cfg, t = { s with eng := e } ∧
    (writesAll i = false → e.m = s.eng.m) ∧
    (writesAll i = false → isIteration i = false → e.q = s.eng.q) ∧
    (writesAll i = false → isIteration i = false → isRestoring i = false → e.a = s.eng.a)

/-- R25 to R30, R208: which micro-operations write the sequencing registers and ERR. -/
def Obligations.SequencingRegisterWriters : Prop :=
  ∀ (i : Instr) (s t : State), exec i s = .next t → ∃ e : Engine s.cfg, t = { s with eng := e } ∧
    (writesAll i = false → e.err = s.eng.err) ∧
    (writesAll i = false → isIteration i = false →
      e.cnt = s.eng.cnt ∧ e.c = s.eng.c ∧ e.op = s.eng.op) ∧
    (writesAll i = false → isIteration i = false → isCorrection i = false →
      e.pend = s.eng.pend ∧ e.phase = s.eng.phase)

/-! ## Invariants -/

/-- R35 in its inductive form (notes/assumptions/22.md): every edge keeps it, in every state that meets it. -/
def Obligations.StepKeepsEngineInvariants : Prop :=
  ∀ s t : State, SafeEngine s.eng → step s = .next t → SafeEngine t.eng

/-- R35, R36: it holds right after reset, for every configuration. -/
def Obligations.ResetMeetsEngineInvariants : Prop :=
  (∀ cfg : Config, SafeEngine (State.resetOf cfg).eng) ∧ SafeEngine State.reset.eng

/-- R35: after reset, whatever the host drives and plans, for any number of edges, the nine invariants hold. -/
def Obligations.ReachableStatesMeetInvariants : Prop :=
  ∀ (k : Nat) (cfg : Config) (l : Line cfg.n) (h : Collab cfg.n) (t : State),
    stepN k ⟨cfg, (State.resetOf cfg).eng, l, h⟩ = .next t → EngineInv t.eng

/-- R155, R57: every edge keeps the agreement of the registers and the collected records with a run of
`nr_divide`. Two parts are the model's: that the host's records begin anew at a DIV and a reset
(notes/assumptions/9.md), and the tenth clause of SafeEngine (notes/assumptions/22.md). -/
def Obligations.StepKeepsRunAgreement : Prop :=
  ∀ s t : State, MachineInv s → step s = .next t → MachineInv t

/-- The agreement holds right after reset. The registers are R36's; that the host's records are empty there is the
model's choice (notes/assumptions/3.md), and SafeEngine's tenth clause its inference (notes/assumptions/22.md). -/
def Obligations.ResetMeetsRunAgreement : Prop :=
  (∀ cfg : Config, MachineInv (State.resetOf cfg)) ∧ MachineInv State.reset

/-- R36, R33: the registers and STATUS right after reset. -/
def Obligations.ResetValues : Prop :=
  ∀ cfg : Config, (State.resetOf cfg).eng =
      { a := 0#_, q := 0#_, m := 0#_, cnt := 0#_, phase := .idle, pend := false, c := false, op := false,
        err := 0b00#2 } ∧
    statusView (State.resetOf cfg).eng = 0b000000#6

/-! ## Whole runs on the machine -/

/-- R155, R170: a DIV begins a run on its two operands; whatever the host's pacing, every edge of the run keeps it the
run of `nr_divide` on them; a run that is DONE shows the Result and has delivered the records of `nr_divide`; and the
host reads that outcome at the edge that ends the run, once, and at no other edge. Three parts are the model's: that the
records begin anew at a DIV (notes/assumptions/9.md), SafeEngine's tenth clause (notes/assumptions/22.md), and when
the host reads the outcome (notes/assumptions/25.md). -/
def Obligations.RunFollowsItsOperands : Prop :=
  (∀ s : State, s.ports.rst = false → s.ports.start = true → s.eng.phase = .idle ∨ s.eng.phase = .done →
    s.eng.err ≠ 0b11#2 →
    ∃ e l h, step s = .next ⟨s.cfg, e, l, h⟩ ∧ h.records = [] ∧
      (nrDivide s.ports.dividend.toNat s.ports.divisor.toNat s.cfg.n s.cfg.div0Policy = .rejected →
        e.phase = .done ∧ e.err = 0b10#2) ∧
      (nrDivide s.ports.dividend.toNat s.ports.divisor.toNat s.cfg.n s.cfg.div0Policy ≠ .rejected →
        e.phase = .iter ∧ e.m = s.ports.divisor ∧ SafeEngine e ∧ RunTracks e h.records s.ports.dividend)) ∧
  (∀ (s : State) (d : Word s.cfg.n), SafeEngine s.eng → RunTracks s.eng s.host.records d →
    s.eng.phase = .iter ∨ s.eng.phase = .corr → s.ports.rst = false →
    ∃ e l h, step s = .next ⟨s.cfg, e, l, h⟩ ∧ SafeEngine e ∧ RunTracks e h.records d ∧
      e.m = s.eng.m ∧ e.err = s.eng.err ∧ e.phase ≠ .idle) ∧
  (∀ (s : State) (d : Word s.cfg.n) (policy : Div0Policy), RunTracks s.eng s.host.records d →
    s.eng.phase = .done → s.eng.err ≠ 0b10#2 → s.eng.m ≠ 0#_ ∨ policy = .proceed →
    nrDivide d.toNat s.eng.m.toNat s.cfg.n policy =
      .result (outputs s.eng).quotient (outputs s.eng).remainder s.host.records) ∧
  (∀ s : State, s.ports.rst = false → s.ports.start = true → s.eng.phase = .idle ∨ s.eng.phase = .done →
    s.eng.err ≠ 0b11#2 →
    ∃ e l h, step s = .next ⟨s.cfg, e, l, h⟩ ∧ h.outcomes = s.host.outcomes ++
      if nrDivide s.ports.dividend.toNat s.ports.divisor.toNat s.cfg.n s.cfg.div0Policy = .rejected
      then [.rejected] else []) ∧
  (∀ (s : State) (d : Word s.cfg.n), SafeEngine s.eng → RunTracks s.eng s.host.records d →
    s.eng.phase = .iter ∨ s.eng.phase = .corr → s.ports.rst = false →
    s.eng.m ≠ 0#_ ∨ s.cfg.div0Policy = .proceed →
    ∃ e l h, step s = .next ⟨s.cfg, e, l, h⟩ ∧
      (e.phase ≠ .done → h.outcomes = s.host.outcomes) ∧
      (e.phase = .done → ∃ q r,
        nrDivide d.toNat s.eng.m.toNat s.cfg.n s.cfg.div0Policy = .result q r h.records ∧
        h.outcomes = s.host.outcomes ++ [.result q r s.eng.err h.records])) ∧
  (∀ s : State, s.ports.rst = true ∨
      (s.eng.err ≠ 0b11#2 ∧ s.ports.start = false ∧ (s.eng.phase = .idle ∨ s.eng.phase = .done)) →
    ∃ e l h, step s = .next ⟨s.cfg, e, l, h⟩ ∧ h.outcomes = s.host.outcomes)

/-- R155 item 4 and R83: with `step_ready = 1` at every edge after the DIV, by lines or by DRAIN, the run is DONE
N+1 edges after the DIV edge, with the Result and the records of `nr_divide`. That the host holds this run's records and
no others is the model's choice (notes/assumptions/9.md). -/
def Obligations.ReadyHostFinishesRun : Prop :=
  ∀ (s : State) (rest : List (HostCmd s.cfg.n)),
    s.ports.rst = false → s.ports.start = true → s.eng.phase = .idle ∨ s.eng.phase = .done →
    s.eng.err ≠ 0b11#2 → s.ports.divisor ≠ 0#_ ∨ s.cfg.div0Policy = .proceed →
    s.host.plan = List.replicate (s.cfg.n + 1) (.line (Line.ready s.cfg.n)) ++ rest ∨
      s.host.plan = .drain :: rest →
    ∃ e l h, stepN (s.cfg.n + 2) s = .next ⟨s.cfg, e, l, h⟩ ∧
      (outputs e).done = true ∧ (outputs e).resultValid = true ∧
      nrDivide s.ports.dividend.toNat s.ports.divisor.toNat s.cfg.n s.cfg.div0Policy =
        .result (outputs e).quotient (outputs e).remainder h.records

/-- R57, R160: the records collected in a run have the indices 1, 2, … in order, never more than N, and the run is
DONE exactly when all N are accepted. -/
def Obligations.RecordsComeInOrder : Prop :=
  ∀ (s : State) (d : Word s.cfg.n), EngineInv s.eng → RunTracks s.eng s.host.records d →
    s.host.records.map StepRecord.index = List.range' 1 s.host.records.length ∧
    s.host.records.length ≤ s.cfg.n ∧
    (s.eng.phase ≠ .idle → s.eng.err ≠ 0b10#2 → (s.eng.phase = .done ↔ s.host.records.length = s.cfg.n))

/-- R124, R239: a pending record stays, field by field, until the host is ready, and is then delivered once, as it
stood on the ports. -/
def Obligations.RecordHeldUntilAccepted : Prop :=
  ∀ s : State, s.ports.rst = false → s.eng.err ≠ 0b11#2 → s.eng.phase = .iter ∨ s.eng.phase = .corr →
    s.eng.pend = true →
    (s.ports.stepReady = false → ∃ l h, step s = .next ⟨s.cfg, s.eng, l, h⟩ ∧ h.records = s.host.records) ∧
    (s.ports.stepReady = true → ∃ e l h, step s = .next ⟨s.cfg, e, l, h⟩ ∧
      h.records = s.host.records ++ [⟨s.eng.cnt.toNat, s.eng.a, s.eng.q, s.eng.c, s.eng.op⟩] ∧
      (s.eng.phase = .corr → e.pend = false) ∧ (s.eng.phase = .iter → e.cnt = s.eng.cnt + 1#_))

/-- R240: an edge of a run either waits for the host, changing no register, or brings DONE one micro-operation
nearer. -/
def Obligations.AcceptedEdgesMakeProgress : Prop :=
  ∀ s : State, EngineInv s.eng → s.ports.rst = false → s.eng.phase = .iter ∨ s.eng.phase = .corr →
    ∃ e l h, step s = .next ⟨s.cfg, e, l, h⟩ ∧
      (s.eng.pend = true ∧ s.ports.stepReady = false → e = s.eng) ∧
      (s.eng.pend = false ∨ s.ports.stepReady = true → remaining e + 1 = remaining s.eng) ∧
      (remaining e = 0 ↔ e.phase = .done)

/-- R240: with a host that never accepts, the engine stalls for any number of edges, and that is no fault. Past the
plan's last line it rests on the model's line of zeros (notes/assumptions/2.md). -/
def Obligations.NeverReadyHostStallsForever : Prop :=
  ∀ (k : Nat) (s : State), s.eng.err ≠ 0b11#2 → s.eng.phase = .iter ∨ s.eng.phase = .corr → s.eng.pend = true →
    s.ports.rst = false → s.ports.stepReady = false →
    (∀ c ∈ s.host.plan, ∃ l : Line s.cfg.n, c = .line l ∧ l.rst = false ∧ l.stepReady = false) →
    ∃ l h, stepN k s = .next ⟨s.cfg, s.eng, l, h⟩

/-- R152: in DONE every register, and with them the result, is held for any number of edges without `start` and
`rst`. Past the plan's last line it rests on the model's line of zeros (notes/assumptions/2.md). -/
def Obligations.DoneIsHeld : Prop :=
  ∀ (k : Nat) (s : State), s.eng.err ≠ 0b11#2 → s.eng.phase = .done →
    s.ports.rst = false → s.ports.start = false →
    (∀ c ∈ s.host.plan, ∃ l : Line s.cfg.n, c = .line l ∧ l.rst = false ∧ l.start = false) →
    ∃ l h, stepN k s = .next ⟨s.cfg, s.eng, l, h⟩ ∧ (outputs s.eng).done = true ∧
      (outputs s.eng).busy = false

/-- R158, R106: what a DIV starts depends on its operands and the configuration only, not on what the registers
or the host held. That neither host holds a record after it is the model's choice (notes/assumptions/9.md). -/
def Obligations.DivForgetsThePast : Prop :=
  ∀ (cfg : Config) (e₁ e₂ : Engine cfg) (l : Line cfg.n) (h₁ h₂ : Collab cfg.n),
    e₁.phase = .idle ∨ e₁.phase = .done → e₂.phase = .idle ∨ e₂.phase = .done →
    e₁.err ≠ 0b11#2 → e₂.err ≠ 0b11#2 → l.rst = false → l.start = true →
    ∃ e l₁ l₂ g₁ g₂, step ⟨cfg, e₁, l, h₁⟩ = .next ⟨cfg, e, l₁, g₁⟩ ∧
      step ⟨cfg, e₂, l, h₂⟩ = .next ⟨cfg, e, l₂, g₂⟩ ∧ g₁.records = [] ∧ g₂.records = []

/-! ## Hazards -/

/-- R235: while a run is in progress neither `start` nor the operands beside it make any difference; so, R174, the
host's valid request waits until `busy = 0`, and then its line is a DIV with its operands. That it waits with `ready`
and drives `step_ready = 0` beside `start` is the model's choice (notes/assumptions/13.md). -/
def Obligations.StartIgnoredWhileBusy : Prop :=
  (∀ (s : State) (b : Bool) (d v : Word s.cfg.n), s.eng.phase = .iter ∨ s.eng.phase = .corr →
    step { s with ports := { s.ports with start := b, dividend := d, divisor := v } } = step s) ∧
  (∀ (s : State) (d v : List Char) (rest : List (HostCmd s.cfg.n)),
    validOperandText d = true → validOperandText v = true → s.host.plan = .divide d v s.cfg.n :: rest →
    (s.eng.phase = .iter ∨ s.eng.phase = .corr →
      (driveNext s).ports = Line.ready s.cfg.n ∧ (driveNext s).host = s.host) ∧
    (s.eng.phase = .idle ∨ s.eng.phase = .done →
      (driveNext s).ports = ⟨false, true, false, operandOfText s.cfg.n d, operandOfText s.cfg.n v⟩ ∧
      (driveNext s).host = { s.host with plan := rest } ∧
      ∃ p ad se, decode (decodeWordOf (driveNext s)) = .div p ad se))

/-- R236: the operand ports are sampled only at a DIV edge. -/
def Obligations.OperandsSampledOnlyAtDiv : Prop :=
  ∀ (s : State) (d v : Word s.cfg.n),
    s.ports.rst = true ∨ s.ports.start = false ∨ s.eng.phase = .iter ∨ s.eng.phase = .corr →
    step { s with ports := { s.ports with dividend := d, divisor := v } } = step s

/-- R238: `step_ready` without a pending record makes no difference, and a record is not accepted before it is
presented: a pending record stays pending over an edge without `step_ready`. -/
def Obligations.ReadyWithoutRecordHasNoEffect : Prop :=
  (∀ (s : State) (b : Bool), s.eng.pend = false →
    step { s with ports := { s.ports with stepReady := b } } = step s) ∧
  (∀ s : State, s.ports.rst = false → s.eng.err ≠ 0b11#2 → s.eng.phase = .iter →
    s.eng.pend = false → ∃ e l h, step s = .next ⟨s.cfg, e, l, h⟩ ∧ e.pend = true ∧
      h.records = s.host.records)

/-! ## Outputs -/

/-- R39: the twelve output ports as functions of the registers. -/
def Obligations.OutputPortEquations : Prop :=
  ∀ (cfg : Config) (e : Engine cfg),
    (outputs e).busy = (e.phase.code).getLsbD 0 ∧
    ((outputs e).done = true ↔ e.phase = .done) ∧
    ((outputs e).resultValid = true ↔ e.phase = .done ∧ e.err ≠ 0b10#2) ∧
    (outputs e).quotient = e.q ∧ (outputs e).remainder = e.a ∧ (outputs e).errCode = e.err ∧
    (outputs e).stepValid = e.pend ∧ (outputs e).stepIndex = e.cnt ∧
    (outputs e).stepA = e.a ∧ (outputs e).stepQ = e.q ∧
    (outputs e).stepCarry = e.c ∧ (outputs e).stepOp = e.op

/-- R33: the fields of STATUS and its reset value. -/
def Obligations.StatusFields : Prop :=
  ∀ (cfg : Config) (e : Engine cfg),
    (statusView e).getLsbD 0 = (e.phase.code).getLsbD 0 ∧
    ((statusView e).getLsbD 1 = true ↔ e.phase = .done) ∧
    ((statusView e).getLsbD 2 = true ↔ e.phase = .done ∧ e.err ≠ 0b10#2) ∧
    (statusView e).getLsbD 3 = e.pend ∧
    (statusView e).extractLsb' 4 2 = e.err ∧
    statusView (Engine.reset cfg) = 0b000000#6

/-! ## Laws of the iteration and of whole runs -/

/-- R126: the carry bit of record `i` is the dividend's bit `N-i`. -/
def Obligations.CarryLaw : Prop :=
  ∀ (n : Nat) (d m : Word n) (i : Nat), 1 ≤ i → i ≤ n → (iterAt d m i).c = d.getLsbD (n - i)

/-- R127: Q after `i` iterations: the dividend bits not yet used, above the quotient bits produced so far. -/
def Obligations.QuotientRegisterLaw : Prop :=
  ∀ (n : Nat) (d m : Word n), 1 ≤ n →
    (∀ i, i ≤ n → (iterAt d m i).q.toNat = (d.toNat * 2 ^ i) % 2 ^ n +
      ((List.range i).map fun j => (!(iterAt d m (j + 1)).a.getLsbD (n - 1)).toNat * 2 ^ (i - (j + 1))).sum) ∧
    (iterAt d m n).q.toNat =
      ((List.range n).map fun j => (!(iterAt d m (j + 1)).a.getLsbD (n - 1)).toNat * 2 ^ (n - (j + 1))).sum

/-- R128: which operation iteration `i` applies. -/
def Obligations.OperationSelectionLaw : Prop :=
  (∀ (n : Nat) (d m : Word n) (i : Nat), 2 ≤ n → 1 ≤ i → i ≤ n →
    (iterAt d m i).op = (iterAt d m (i - 1)).a.getLsbD (n - 2)) ∧
  (∀ (n : Nat) (d m : Word n), 2 ≤ n → (iterAt d m 1).op = false) ∧
  (∀ d m : Word 1, (iterAt d m 1).op = d.getLsbD 0)

/-- R130: the iterations of a zero divisor. -/
def Obligations.ZeroDivisorIterations : Prop :=
  ∀ (n : Nat) (d : Word n) (i : Nat), 1 ≤ i → i ≤ n →
    (iterAt d 0#n i).a.toNat = d.toNat / 2 ^ (n - i) ∧
    (i < n → (iterAt d 0#n i).a.getLsbD (n - 1) = false) ∧
    (i = n → (iterAt d 0#n i).a.getLsbD (n - 1) = d.getLsbD (n - 1)) ∧
    (iterAt d 0#n i).op = (iterAt d 0#n i).a.getLsbD (n - 1)

/-- R159: the result of a zero divisor under PROCEED; the correction adds, namely 0, exactly when the dividend's
top bit is 1. -/
def Obligations.ZeroDivisorResult : Prop :=
  ∀ (n : Nat) (d : Word n), 1 ≤ n → ∃ q steps,
    nrDivide d.toNat 0 n .proceed = .result q d steps ∧
    q.toNat = 2 ^ n - 1 - (d.getLsbD (n - 1)).toNat ∧
    (iterAt d 0#n n).a.getLsbD (n - 1) = d.getLsbD (n - 1) ∧
    restoreA (iterAt d 0#n n).a 0#n = (iterAt d 0#n n).a

/-- R131: the signed recurrence, and that none of its values wraps. -/
def Obligations.SignedRecurrence : Prop :=
  ∀ (n : Nat) (d m : Word n), 2 ≤ n → 1 ≤ m.toNat → m.toNat ≤ 2 ^ (n - 2) →
    ∀ i, 1 ≤ i → i ≤ n →
      (iterAt d m i).a.toInt = 2 * (iterAt d m (i - 1)).a.toInt + (iterAt d m i).c.toNat
        + (if (iterAt d m i).op then (m.toNat : Int) else -(m.toNat : Int)) ∧
      -(m.toNat : Int) ≤ (iterAt d m i).a.toInt ∧ (iterAt d m i).a.toInt < (m.toNat : Int)

/-- R156, its first item: true division for `1 ≤ V ≤ 2^(n-2)`. -/
def Obligations.TrueDivisionOnSmallDivisors : Prop :=
  ∀ (n dividend divisor : Nat) (policy : Div0Policy), 2 ≤ n → dividend < 2 ^ n →
    1 ≤ divisor → divisor ≤ 2 ^ (n - 2) →
    ∃ q r steps, nrDivide dividend divisor n policy = .result q r steps ∧
      q.toNat = dividend / divisor ∧ r.toNat = dividend % divisor

/-- R156, its second and third items, for every width: true division for `V = 2^(n-1)`. The spec checked n = 1 to 10
and proved none; this states it for every n. -/
def Obligations.TrueDivisionByTopPower : Prop :=
  ∀ (n dividend : Nat) (policy : Div0Policy), 1 ≤ n → dividend < 2 ^ n →
    ∃ q r steps, nrDivide dividend (2 ^ (n - 1)) n policy = .result q r steps ∧
      q.toNat = dividend / 2 ^ (n - 1) ∧ r.toNat = dividend % 2 ^ (n - 1)

/-- R157: the spec's four examples outside the correctness domain, and the fourth of R156's list. -/
def Obligations.OutsideTheDomainExamples : Prop :=
  (∃ steps, nrDivide 0 5 4 .proceed = .result 4#4 4#4 steps) ∧
  (∃ steps, nrDivide 11 6 4 .proceed = .result 5#4 1#4 steps) ∧
  (∃ steps, nrDivide 0 3 2 .proceed = .result 3#2 1#2 steps) ∧
  (∃ steps, nrDivide 200 100 8 .proceed = .result 37#8 84#8 steps)

/-- R161, its first item: the largest dividend by one; for `n ≥ 2` every iteration subtracts and leaves A = 0. (For
n = 1 the one iteration adds: spec/95_test_vectors.md 1.3, notes/assumptions/23.md.) -/
def Obligations.LargestDividendByOne : Prop :=
  ∀ (n : Nat) (policy : Div0Policy), 1 ≤ n → ∃ q steps,
    nrDivide (2 ^ n - 1) 1 n policy = .result q 0#n steps ∧ q.toNat = 2 ^ n - 1 ∧
    (∀ i, i ≤ n → (iterAt (BitVec.ofNat n (2 ^ n - 1)) 1#n i).a = 0#n) ∧
    (2 ≤ n → ∀ i, i ≤ n → (iterAt (BitVec.ofNat n (2 ^ n - 1)) 1#n i).op = false)

/-! ## Elaboration and the host -/

/-- R202: no engine has a width of 0 or less; the configuration carries both proofs; `nr_divide` raises
InvalidBitWidth; and what is elaborated is what was asked for. -/
def Obligations.ElaborationRefusesBadWidths : Prop :=
  (∀ (n : Int) (ws : List Nat) (p : Div0Policy), n ≤ 0 → elaborate n ws p = .error .invalidBitWidth) ∧
  (∀ (n : Int) (ws : List Nat) (p : Div0Policy) (cfg : Config),
    elaborate n ws p = .ok cfg ↔ (cfg.n : Int) = n ∧ cfg.supportedWidths = ws ∧ cfg.div0Policy = p) ∧
  (∀ cfg : Config, 1 ≤ cfg.n ∧ cfg.n ∈ cfg.supportedWidths) ∧
  (∀ (x y : Nat) (p : Div0Policy), nrDivide x y 0 p = .invalidBitWidth)

/-- R10: CW is `max(1, ⌈log2(N+1)⌉)`, and the least width that holds every value 0..N. -/
def Obligations.CounterWidth : Prop :=
  ∀ cfg : Config, cfg.cw = max 1 (Nat.clog 2 (cfg.n + 1)) ∧ cfg.n < 2 ^ cfg.cw ∧
    ∀ w, 1 ≤ w → cfg.n < 2 ^ w → cfg.cw ≤ w

/-- R172: what a valid operand string denotes, and that the port carries the rightmost N characters. -/
def Obligations.OperandTextIsTruncated : Prop :=
  (∀ t : List Char, binaryValue t = ((List.range t.length).map fun k =>
    (if t.reverse[k]? = some '1' then 1 else 0) * 2 ^ k).sum) ∧
  (∀ (n : Nat) (t : List Char), validOperandText t = true →
    (operandOfText n t).toNat = binaryValue (t.drop (t.length - n)) ∧
    (t.length ≤ n → (operandOfText n t).toNat = binaryValue t)) ∧
  (∀ (cfg : Config) (d v : List Char), validOperandText d = true → validOperandText v = true →
    ∃ l, requestLine cfg d v cfg.n = .ok l ∧ l.rst = false ∧ l.start = true ∧
      l.dividend = operandOfText cfg.n d ∧ l.divisor = operandOfText cfg.n v)

/-- R171, R203: which operand strings are valid; a request with an invalid string, or of a width that is not this
engine's (notes/assumptions/13.md), is reported as InvalidInput and takes no edge. -/
def Obligations.InvalidInputIssuesNoDiv : Prop :=
  (∀ t : List Char, validOperandText t = true ↔ t ≠ [] ∧ ∀ ch ∈ t, ch = '0' ∨ ch = '1') ∧
  (∀ (s : State) (d v : List Char) (w : Int) (rest : List (HostCmd s.cfg.n)),
    validOperandText d = false ∨ validOperandText v = false ∨ w ≠ s.cfg.n →
    driveNext { s with host := { s.host with plan := .divide d v w :: rest } } =
      driveNext { s with host :=
        { s.host with plan := rest, reports := s.host.reports ++ [.invalidInput] } })

/-- R176: a presented value is n binary digits, most significant first, that read back as the value; the labels of
`step_op`. -/
def Obligations.PresentedBinaryIsPadded : Prop :=
  (∀ (n : Nat) (w : Word n), (binaryText w).length = n ∧ binaryValue (binaryText w) = w.toNat ∧
    (1 ≤ n → validOperandText (binaryText w) = true)) ∧
  opLabel true = "shift+add" ∧ opLabel false = "shift+subtract" ∧
  binaryText 5#8 = ['0', '0', '0', '0', '0', '1', '0', '1']
end

