-- ==== Sys2Proof/Laws/State.lean ====
section
/-! SUPPORT. The fields of every named update of the state and of the registers, each by `rfl`, so that no later
proof unfolds a record update. -/

namespace Sys2Proof.Machine

@[simp] theorem State.withEngine_cfg (s : State) (e) : (s.withEngine e).cfg = s.cfg := rfl
@[simp] theorem State.withEngine_eng (s : State) (e) : (s.withEngine e).eng = e := rfl
@[simp] theorem State.withEngine_ports (s : State) (e) : (s.withEngine e).ports = s.ports := rfl
@[simp] theorem State.withEngine_host (s : State) (e) : (s.withEngine e).host = s.host := rfl
@[simp] theorem State.withEngine_self (s : State) : s.withEngine s.eng = s := rfl

@[simp] theorem State.withPorts_cfg (s : State) (l) : (s.withPorts l).cfg = s.cfg := rfl
@[simp] theorem State.withPorts_eng (s : State) (l) : (s.withPorts l).eng = s.eng := rfl
@[simp] theorem State.withPorts_ports (s : State) (l) : (s.withPorts l).ports = l := rfl
@[simp] theorem State.withPorts_host (s : State) (l) : (s.withPorts l).host = s.host := rfl

@[simp] theorem State.withHost_cfg (s : State) (h) : (s.withHost h).cfg = s.cfg := rfl
@[simp] theorem State.withHost_eng (s : State) (h) : (s.withHost h).eng = s.eng := rfl
@[simp] theorem State.withHost_ports (s : State) (h) : (s.withHost h).ports = s.ports := rfl
@[simp] theorem State.withHost_host (s : State) (h) : (s.withHost h).host = h := rfl

@[simp] theorem collect_cfg (s : State) : (collect s).cfg = s.cfg := rfl
@[simp] theorem collect_eng (s : State) : (collect s).eng = s.eng := rfl
@[simp] theorem collect_ports (s : State) : (collect s).ports = s.ports := rfl
@[simp] theorem collect_plan (s : State) : (collect s).host.plan = s.host.plan := rfl
@[simp] theorem collect_records (s : State) : (collect s).host.records = collectedRecords s := rfl
@[simp] theorem collect_outcomes (s : State) : (collect s).host.outcomes = s.host.outcomes := rfl
@[simp] theorem collect_reports (s : State) : (collect s).host.reports = s.host.reports := rfl

@[simp] theorem driveNext_cfg (s : State) : (driveNext s).cfg = s.cfg := rfl
@[simp] theorem driveNext_eng (s : State) : (driveNext s).eng = s.eng := rfl
@[simp] theorem driveNext_records (s : State) : (driveNext s).host.records = s.host.records := rfl
@[simp] theorem driveNext_outcomes (s : State) : (driveNext s).host.outcomes = s.host.outcomes := rfl
theorem driveNext_ports (s : State) :
    (driveNext s).ports = (nextTurn s.cfg (outputs s.eng).busy (outputs s.eng).done s.host.plan s.host.reports).line := rfl
theorem driveNext_plan (s : State) :
    (driveNext s).host.plan = (nextTurn s.cfg (outputs s.eng).busy (outputs s.eng).done s.host.plan s.host.reports).plan := rfl
theorem driveNext_reports (s : State) :
    (driveNext s).host.reports
      = (nextTurn s.cfg (outputs s.eng).busy (outputs s.eng).done s.host.plan s.host.reports).reports := rfl

@[simp] theorem readOutcome_cfg (b : Bool) (s : State) : (readOutcome b s).cfg = s.cfg := rfl
@[simp] theorem readOutcome_eng (b : Bool) (s : State) : (readOutcome b s).eng = s.eng := rfl
@[simp] theorem readOutcome_ports (b : Bool) (s : State) : (readOutcome b s).ports = s.ports := rfl
@[simp] theorem readOutcome_plan (b : Bool) (s : State) : (readOutcome b s).host.plan = s.host.plan := rfl
@[simp] theorem readOutcome_records (b : Bool) (s : State) : (readOutcome b s).host.records = s.host.records := rfl
@[simp] theorem readOutcome_reports (b : Bool) (s : State) : (readOutcome b s).host.reports = s.host.reports := rfl
theorem readOutcome_outcomes (b : Bool) (s : State) : (readOutcome b s).host.outcomes = s.host.outcomes ++
    if b && (outputs s.eng).done then [presentedOutcome s.eng s.host.records] else [] := rfl

section Registers
variable {cfg : Config} (d v : Word cfg.n) (code : ErrCode) (op : Bool) (e : Engine cfg)

@[simp] theorem Engine.reset_a : (Engine.reset cfg).a = 0#cfg.n := rfl
@[simp] theorem Engine.reset_q : (Engine.reset cfg).q = 0#cfg.n := rfl
@[simp] theorem Engine.reset_m : (Engine.reset cfg).m = 0#cfg.n := rfl
@[simp] theorem Engine.reset_cnt : (Engine.reset cfg).cnt = 0#cfg.cw := rfl
@[simp] theorem Engine.reset_phase : (Engine.reset cfg).phase = .idle := rfl
@[simp] theorem Engine.reset_pend : (Engine.reset cfg).pend = false := rfl
@[simp] theorem Engine.reset_c : (Engine.reset cfg).c = false := rfl
@[simp] theorem Engine.reset_op : (Engine.reset cfg).op = false := rfl
@[simp] theorem Engine.reset_err : (Engine.reset cfg).err = 0#2 := rfl

@[simp] theorem loadRun_a : (loadRun cfg d v code).a = 0#cfg.n := rfl
@[simp] theorem loadRun_q : (loadRun cfg d v code).q = d := rfl
@[simp] theorem loadRun_m : (loadRun cfg d v code).m = v := rfl
@[simp] theorem loadRun_cnt : (loadRun cfg d v code).cnt = 0#cfg.cw := rfl
@[simp] theorem loadRun_phase : (loadRun cfg d v code).phase = .iter := rfl
@[simp] theorem loadRun_pend : (loadRun cfg d v code).pend = false := rfl
@[simp] theorem loadRun_c : (loadRun cfg d v code).c = false := rfl
@[simp] theorem loadRun_op : (loadRun cfg d v code).op = false := rfl
@[simp] theorem loadRun_err : (loadRun cfg d v code).err = code.code := rfl

@[simp] theorem rejectRun_a : (rejectRun cfg).a = 0#cfg.n := rfl
@[simp] theorem rejectRun_q : (rejectRun cfg).q = 0#cfg.n := rfl
@[simp] theorem rejectRun_m : (rejectRun cfg).m = 0#cfg.n := rfl
@[simp] theorem rejectRun_cnt : (rejectRun cfg).cnt = 0#cfg.cw := rfl
@[simp] theorem rejectRun_phase : (rejectRun cfg).phase = .done := rfl
@[simp] theorem rejectRun_pend : (rejectRun cfg).pend = false := rfl
@[simp] theorem rejectRun_c : (rejectRun cfg).c = false := rfl
@[simp] theorem rejectRun_op : (rejectRun cfg).op = false := rfl
@[simp] theorem rejectRun_err : (rejectRun cfg).err = 2#2 := rfl

@[simp] theorem iterate_a : (iterate op e).a = (iterWith op e.a e.q e.m).a := rfl
@[simp] theorem iterate_q : (iterate op e).q = (iterWith op e.a e.q e.m).q := rfl
@[simp] theorem iterate_m : (iterate op e).m = e.m := rfl
@[simp] theorem iterate_cnt : (iterate op e).cnt = e.cnt + 1#cfg.cw := rfl
@[simp] theorem iterate_phase :
    (iterate op e).phase = if e.cnt.toNat + 1 = cfg.n then .corr else e.phase := rfl
@[simp] theorem iterate_pend : (iterate op e).pend = true := rfl
@[simp] theorem iterate_c : (iterate op e).c = carryBit e.q := rfl
@[simp] theorem iterate_op : (iterate op e).op = op := rfl
@[simp] theorem iterate_err : (iterate op e).err = e.err := rfl

@[simp] theorem finishRun_a : (finishRun e).a = e.a := rfl
@[simp] theorem finishRun_q : (finishRun e).q = e.q := rfl
@[simp] theorem finishRun_m : (finishRun e).m = e.m := rfl
@[simp] theorem finishRun_cnt : (finishRun e).cnt = e.cnt := rfl
@[simp] theorem finishRun_phase : (finishRun e).phase = .done := rfl
@[simp] theorem finishRun_pend : (finishRun e).pend = false := rfl
@[simp] theorem finishRun_c : (finishRun e).c = e.c := rfl
@[simp] theorem finishRun_op : (finishRun e).op = e.op := rfl
@[simp] theorem finishRun_err : (finishRun e).err = e.err := rfl

@[simp] theorem restoreAndFinish_a : (restoreAndFinish e).a = restoreA e.a e.m := rfl
@[simp] theorem restoreAndFinish_q : (restoreAndFinish e).q = e.q := rfl
@[simp] theorem restoreAndFinish_m : (restoreAndFinish e).m = e.m := rfl
@[simp] theorem restoreAndFinish_cnt : (restoreAndFinish e).cnt = e.cnt := rfl
@[simp] theorem restoreAndFinish_phase : (restoreAndFinish e).phase = .done := rfl
@[simp] theorem restoreAndFinish_pend : (restoreAndFinish e).pend = false := rfl
@[simp] theorem restoreAndFinish_c : (restoreAndFinish e).c = e.c := rfl
@[simp] theorem restoreAndFinish_op : (restoreAndFinish e).op = e.op := rfl
@[simp] theorem restoreAndFinish_err : (restoreAndFinish e).err = e.err := rfl

end Registers

section Views
variable {cfg : Config} (e : Engine cfg)

@[simp] theorem outputs_busy : (outputs e).busy = e.phase.busy := rfl
@[simp] theorem outputs_done : (outputs e).done = (e.phase.code == 0b10#2) := rfl
@[simp] theorem outputs_quotient : (outputs e).quotient = e.q := rfl
@[simp] theorem outputs_remainder : (outputs e).remainder = e.a := rfl
@[simp] theorem outputs_errCode : (outputs e).errCode = e.err := rfl
@[simp] theorem outputs_stepValid : (outputs e).stepValid = e.pend := rfl
@[simp] theorem outputs_stepIndex : (outputs e).stepIndex = e.cnt := rfl
@[simp] theorem presentedRecord_eq :
    presentedRecord e = ⟨e.cnt.toNat, e.a, e.q, e.c, e.op⟩ := rfl

end Views

@[simp] theorem Line.idle_rst (n : Nat) : (Line.idle n).rst = false := rfl
@[simp] theorem Line.idle_start (n : Nat) : (Line.idle n).start = false := rfl
@[simp] theorem Line.idle_stepReady (n : Nat) : (Line.idle n).stepReady = false := rfl
@[simp] theorem Line.ready_rst (n : Nat) : (Line.ready n).rst = false := rfl
@[simp] theorem Line.ready_start (n : Nat) : (Line.ready n).start = false := rfl
@[simp] theorem Line.ready_stepReady (n : Nat) : (Line.ready n).stepReady = true := rfl

end Sys2Proof.Machine
end

