-- ==== Sys2Proof/Laws/Ops.lean ====
section
/-! SUPPORT. What each shared operation does, said once: masking and the N-bit adder as bit-vector arithmetic, the
iteration function, the three cases of DIV, the loop of `nr_divide` and its records, and the width of the counter. -/

namespace Sys2Proof.Machine

@[simp] theorem maskN_toNat (w v : Nat) : (maskN w v).toNat = v % 2 ^ w := BitVec.toNat_ofNat v w

theorem signFlag_eq_msb {n : Nat} (v : Word n) : signFlag v = v.msb := by
  rw [signFlag, BitVec.msb_eq_getLsbD_last]

/-- The sign as an inequality: negative is "at least half the range". -/
theorem signFlag_iff {n : Nat} (hn : 1 ≤ n) (v : Word n) : signFlag v = true ↔ 2 ^ (n - 1) ≤ v.toNat := by
  obtain ⟨k, rfl⟩ : ∃ k, n = k + 1 := ⟨n - 1, by omega⟩
  rw [signFlag_eq_msb, BitVec.msb_eq_decide]; simp

theorem addOrSub_true {n : Nat} (as m : Word n) : addOrSub true as m = as + m := by
  apply BitVec.eq_of_toNat_eq; simp [addOrSub]

theorem addOrSub_false {n : Nat} (as m : Word n) : addOrSub false as m = as - m := by
  apply BitVec.eq_of_toNat_eq
  have := m.isLt
  simp only [addOrSub, Bool.false_eq_true, if_false, maskN_toNat, BitVec.toNat_sub]
  congr 1; omega

theorem restoreA_eq {n : Nat} (a m : Word n) : restoreA a m = a + m := by
  apply BitVec.eq_of_toNat_eq; simp [restoreA]

theorem shiftedA_toNat {n : Nat} (a q : Word n) :
    (shiftedA a q).toNat = (2 * a.toNat + (carryBit q).toNat) % 2 ^ n := by simp [shiftedA]

/-- For `N ≥ 2` the shifted A takes its sign from the second-highest bit of A (R72). -/
theorem signFlag_shiftedA {n : Nat} (hn : 2 ≤ n) (a q : Word n) :
    signFlag (shiftedA a q) = a.getLsbD (n - 2) := by
  obtain ⟨k, rfl⟩ : ∃ k, n = k + 2 := ⟨n - 2, by omega⟩
  have hb : 2 * a.toNat + (carryBit q).toNat = Nat.bit (carryBit q) a.toNat := by
    cases carryBit q <;> simp [Nat.bit]
  simp only [signFlag, shiftedA, maskN, BitVec.getLsbD_ofNat, hb, Nat.add_sub_cancel,
    show k + 2 - 1 = k + 1 from rfl, Nat.testBit_bit_succ]
  simp [BitVec.getLsbD]

/-- For `N = 1` the shifted A is the carry bit (R72). -/
theorem signFlag_shiftedA_one (a q : Word 1) : signFlag (shiftedA a q) = q.getLsbD 0 := by
  simp only [signFlag, shiftedA, maskN, BitVec.getLsbD_ofNat, carryBit, show 1 - 1 = 0 from rfl]
  cases q.getLsbD 0 <;> simp

/-- The new Q (R120): the old one shifted, plus the quotient bit. -/
theorem nextQ_toNat {n : Nat} (hn : 1 ≤ n) (q a' : Word n) :
    (nextQ q a').toNat = (2 * q.toNat) % 2 ^ n + (!signFlag a').toNat := by
  obtain ⟨k, rfl⟩ : ∃ k, n = k + 1 := ⟨n - 1, by omega⟩
  have h2 : 2 ^ (k + 1) = 2 * 2 ^ k := by ring
  have hm : (2 * q.toNat) % 2 ^ (k + 1) = 2 * (q.toNat % 2 ^ k) := by
    rw [h2, Nat.mul_mod_mul_left]
  have hlt := Nat.mod_lt q.toNat (Nat.two_pow_pos k)
  unfold nextQ
  cases signFlag a'
  · simp only [Bool.false_eq_true, if_false, maskN_toNat, hm, Bool.not_false, Bool.toNat_true]
    exact Nat.mod_eq_of_lt (by omega)
  · simp

@[simp] theorem iterWith_c {n : Nat} (op : Bool) (a q m : Word n) : (iterWith op a q m).c = carryBit q := rfl
@[simp] theorem iterWith_op {n : Nat} (op : Bool) (a q m : Word n) : (iterWith op a q m).op = op := rfl
theorem iterWith_a {n : Nat} (op : Bool) (a q m : Word n) :
    (iterWith op a q m).a = addOrSub op (shiftedA a q) m := rfl
theorem iterWith_q {n : Nat} (op : Bool) (a q m : Word n) :
    (iterWith op a q m).q = nextQ q (iterWith op a q m).a := rfl

/-- `nr_iter` along the path that `sel` chooses. -/
theorem nrIter_of_sel {n : Nat} {op : Bool} {a q m : Word n} (h : signFlag (shiftedA a q) = op) :
    nrIter a q m = iterWith op a q m := by rw [nrIter, h]

/-- What DIV does (R100, R101, R102). -/
theorem startRun_cases (cfg : Config) (d v : Word cfg.n) :
    (v ≠ 0#cfg.n ∧ startRun cfg d v = loadRun cfg d v .none) ∨
    (v = 0#cfg.n ∧ cfg.div0Policy = .proceed ∧ startRun cfg d v = loadRun cfg d v .div0Proceed) ∨
    (v = 0#cfg.n ∧ cfg.div0Policy = .reject ∧ startRun cfg d v = rejectRun cfg) := by
  unfold startRun
  by_cases hv : v = 0#cfg.n
  · cases hp : cfg.div0Policy <;> simp [hv]
  · simp [hv]

@[simp] theorem iterAt_zero {n : Nat} (d m : Word n) : iterAt d m 0 = ⟨0#n, d, false, false⟩ := rfl
theorem iterAt_succ {n : Nat} (d m : Word n) (i : Nat) :
    iterAt d m (i + 1) = nrIter (iterAt d m i).a (iterAt d m i).q m := rfl

@[simp] theorem stepsUpTo_zero {n : Nat} (d m : Word n) : stepsUpTo d m 0 = [] := rfl
theorem stepsUpTo_succ {n : Nat} (d m : Word n) (k : Nat) :
    stepsUpTo d m (k + 1) = stepsUpTo d m k ++ [recordAt d m (k + 1)] := by
  simp [stepsUpTo, List.range_succ]
@[simp] theorem stepsUpTo_length {n : Nat} (d m : Word n) (k : Nat) : (stepsUpTo d m k).length = k := by
  simp [stepsUpTo]

/-- The counter can hold every value up to N (R10). -/
theorem n_lt_two_pow_cw (cfg : Config) : cfg.n < 2 ^ cfg.cw :=
  lt_of_lt_of_le Nat.lt_log2_self (Nat.pow_le_pow_right (by omega) (Nat.le_max_right ..))

/-- The counter does not wrap while it is below N (R25). -/
theorem cnt_succ_toNat {cfg : Config} (c : BitVec cfg.cw) (h : c.toNat < cfg.n) :
    (c + 1#cfg.cw).toNat = c.toNat + 1 := by
  have := n_lt_two_pow_cw cfg
  have h1 : 1 % 2 ^ cfg.cw = 1 := Nat.mod_eq_of_lt (by have := cfg.n_pos; omega)
  rw [BitVec.toNat_add, BitVec.toNat_ofNat, h1, Nat.mod_eq_of_lt (by omega)]

end Sys2Proof.Machine
end

