-- ==== Sys2Proof/Laws/PerInstr.lean ====
section
/-! SUPPORT. Statements made once per micro-operation, as syntax. -/

namespace Sys2Proof.Laws

/-- The word of a well-formed micro-operation matches the (match, mask) pair of its own row and of no other
(spec/30_encoding.md R74, R75). -/
def MatchesOwnRow.Statement (i : Instr) : Prop :=
  i.wf = true → opcodeRows.filter (·.matchesWord (encode i)) = [i.row]

theorem MatchesOwnRow.reset (phase : Phase) (start adv sel : Bool) :
    MatchesOwnRow.Statement (.reset phase start adv sel) := by
  cases phase <;> cases start <;> cases adv <;> cases sel <;> (unfold MatchesOwnRow.Statement; decide)

theorem MatchesOwnRow.hold (phase : Phase) (adv sel : Bool) :
    MatchesOwnRow.Statement (.hold phase adv sel) := by
  cases phase <;> cases adv <;> cases sel <;> (unfold MatchesOwnRow.Statement; decide)

theorem MatchesOwnRow.div (phase : Phase) (adv sel : Bool) :
    MatchesOwnRow.Statement (.div phase adv sel) := by
  cases phase <;> cases adv <;> cases sel <;> (unfold MatchesOwnRow.Statement; decide)

theorem MatchesOwnRow.stall (phase : Phase) (start sel : Bool) :
    MatchesOwnRow.Statement (.stall phase start sel) := by
  cases phase <;> cases start <;> cases sel <;> (unfold MatchesOwnRow.Statement; decide)

theorem MatchesOwnRow.stepSub (start : Bool) : MatchesOwnRow.Statement (.stepSub start) := by
  cases start <;> (unfold MatchesOwnRow.Statement; decide)

theorem MatchesOwnRow.stepAdd (start : Bool) : MatchesOwnRow.Statement (.stepAdd start) := by
  cases start <;> (unfold MatchesOwnRow.Statement; decide)

theorem MatchesOwnRow.corrNone (start : Bool) : MatchesOwnRow.Statement (.corrNone start) := by
  cases start <;> (unfold MatchesOwnRow.Statement; decide)

theorem MatchesOwnRow.corrAdd (start : Bool) : MatchesOwnRow.Statement (.corrAdd start) := by
  cases start <;> (unfold MatchesOwnRow.Statement; decide)

end Sys2Proof.Laws
end

