-- ==== Sys2Proof/Laws/Step.lean ====
section
/-! SUPPORT. What one edge can do, said once: the effect of each micro-operation, which one U selects, and the inversion
of `step`. -/

namespace Sys2Proof.Machine

/-- The registers after a micro-operation; every micro-operation answers a next state. -/
theorem exec_eq (i : Instr) (s : State) :
    exec i s = .next (s.withEngine (match i with
      | .reset _ _ _ _ => Engine.reset s.cfg
      | .hold _ _ _ => s.eng
      | .div _ _ _ => startRun s.cfg s.ports.dividend s.ports.divisor
      | .stall _ _ _ => s.eng
      | .stepSub _ => iterate false s.eng
      | .stepAdd _ => iterate true s.eng
      | .corrNone _ => finishRun s.eng
      | .corrAdd _ => restoreAndFinish s.eng)) := by
  cases i <;> rfl

/-- The decoder on a packed word, field by field. -/
theorem decode_pack (rst : Bool) (p : Phase) (start adv sel : Bool) :
    decode (packWord rst p start adv sel) =
      if rst then .reset p start adv sel
      else match p with
        | .idle => if start then .div .idle adv sel else .hold .idle adv sel
        | .done => if start then .div .done adv sel else .hold .done adv sel
        | .iter => if !adv then .stall .iter start sel else if sel then .stepAdd start else .stepSub start
        | .corr => if !adv then .stall .corr start sel else if sel then .corrAdd start else .corrNone start := by
  cases rst <;> cases p <;> cases start <;> cases adv <;> cases sel <;> decide

@[simp] theorem Phase.busy_idle : Phase.busy .idle = false := by decide
@[simp] theorem Phase.busy_iter : Phase.busy .iter = true := by decide
@[simp] theorem Phase.busy_corr : Phase.busy .corr = true := by decide
@[simp] theorem Phase.busy_done : Phase.busy .done = false := by decide

/-- The registers after an edge, from the registers and the ports at it. -/
def edgeEngine (s : State) : Engine s.cfg :=
  if s.ports.rst then Engine.reset s.cfg
  else match s.eng.phase with
    | .idle | .done =>
      if s.ports.start then startRun s.cfg s.ports.dividend s.ports.divisor else s.eng
    | .iter =>
      if s.eng.pend && !s.ports.stepReady then s.eng
      else iterate (signFlag (shiftedA s.eng.a s.eng.q)) s.eng
    | .corr =>
      if s.eng.pend && !s.ports.stepReady then s.eng
      else if signFlag s.eng.a then restoreAndFinish s.eng else finishRun s.eng

/-- The micro-operation that U selects has the effect of `edgeEngine`. -/
theorem exec_decodeWordOf (s : State) :
    exec (decode (decodeWordOf s)) (collect s) = .next ((collect s).withEngine (edgeEngine s)) := by
  rw [exec_eq, decodeWordOf, decode_pack]
  unfold edgeEngine selectBit advanceBit
  cases hr : s.ports.rst <;> cases hp : s.eng.phase <;> cases hs : s.ports.start <;>
    cases hd : s.eng.pend <;> cases hy : s.ports.stepReady <;> simp
  all_goals
    first
      | (cases hf : signFlag (shiftedA s.eng.a s.eng.q) <;> simp)
      | (cases hf : signFlag s.eng.a <;> simp)

theorem errCode_ofCode_none_iff (b : BitVec 2) : ErrCode.ofCode b = none ↔ b = 0b11#2 := by
  revert b; decide

theorem edgeFault_none_iff (s : State) : edgeFault s = none ↔ s.ports.rst = true ∨ s.eng.err ≠ 0b11#2 := by
  have h := errCode_ofCode_none_iff s.eng.err
  unfold edgeFault
  cases s.ports.rst <;> cases hc : ErrCode.ofCode s.eng.err <;> simp_all

/-- What one edge does, wherever it is not stopped. -/
theorem step_eq {s : State} (h : s.ports.rst = true ∨ s.eng.err ≠ 0b11#2) :
    step s = .next (driveNext (readOutcome (runAtEdge s) ((collect s).withEngine (edgeEngine s)))) := by
  rw [step, (edgeFault_none_iff s).2 h, exec_decodeWordOf]

/-- The only way an edge stops (R78). -/
theorem step_fault {s : State} (hr : s.ports.rst = false) (he : s.eng.err = 0b11#2) :
    step s = .fault .reservedErr := by
  simp [step, edgeFault, hr, he, ErrCode.ofCode]

/-- Inversion of one edge. -/
theorem step_next {s t : State} (h : step s = .next t) :
    (s.ports.rst = true ∨ s.eng.err ≠ 0b11#2) ∧
      t = driveNext (readOutcome (runAtEdge s) ((collect s).withEngine (edgeEngine s))) := by
  by_cases hn : s.ports.rst = true ∨ s.eng.err ≠ 0b11#2
  · rw [step_eq hn] at h
    exact ⟨hn, (Host.Outcome.next.inj h).symm⟩
  · simp only [not_or, Bool.not_eq_true, not_not] at hn
    rw [step_fault hn.1 hn.2] at h
    exact absurd h (by simp)

/-- The outcome the host reads at an edge, if a run ends there. -/
def outcomesRead (s : State) : List (RunOutcome s.cfg.n) :=
  if runAtEdge s && (outputs (edgeEngine s)).done then [presentedOutcome (edgeEngine s) (collectedRecords s)] else []

/-- What one edge leaves, as one state: configuration and registers, the line of the host's turn, and a host with
that turn's plan and reports, the collected records, and the outcome read. -/
theorem step_turn {s : State} (h : s.ports.rst = true ∨ s.eng.err ≠ 0b11#2) :
    step s =
      let turn := nextTurn s.cfg (outputs (edgeEngine s)).busy (outputs (edgeEngine s)).done s.host.plan s.host.reports
      .next ⟨s.cfg, edgeEngine s, turn.line,
        ⟨turn.plan, collectedRecords s, s.host.outcomes ++ outcomesRead s, turn.reports⟩⟩ :=
  step_eq h

/-- The same without the host's turn. -/
theorem step_state {s : State} (h : s.ports.rst = true ∨ s.eng.err ≠ 0b11#2) :
    ∃ l g, step s = .next ⟨s.cfg, edgeEngine s, l, g⟩ ∧ g.records = collectedRecords s :=
  ⟨_, _, step_turn h, rfl⟩

theorem runAtEdge_run {s : State} (hp : s.eng.phase = .iter ∨ s.eng.phase = .corr) : runAtEdge s = true := by
  rcases hp with hp | hp <;> simp [runAtEdge, hp]

theorem runAtEdge_start {s : State} (hs : s.ports.start = true) : runAtEdge s = true := by
  simp [runAtEdge, hs]

/-- The Result is read, with the collected records, where a run ends that was not refused. -/
theorem outcomesRead_result {s : State} (hr : runAtEdge s = true) (hp : (edgeEngine s).phase = .done)
    (he : (edgeEngine s).err ≠ 0b10#2) : outcomesRead s =
      [.result (edgeEngine s).q (edgeEngine s).a (edgeEngine s).err (collectedRecords s)] := by
  have hv : (outputs (edgeEngine s)).resultValid = true := by
    simp [outputs, hp, he, Phase.code, ErrCode.code]
  simp [outcomesRead, hr, hp, presentedOutcome, resultPair, hv, Phase.code]

/-- The refusal is read where a DIV was refused. -/
theorem outcomesRead_rejected {s : State} (hr : runAtEdge s = true) (hp : (edgeEngine s).phase = .done)
    (he : (edgeEngine s).err = 0b10#2) : outcomesRead s = [.rejected] := by
  have hv : (outputs (edgeEngine s)).resultValid = false := by
    simp [outputs, he, ErrCode.code]
  simp [outcomesRead, hr, hp, presentedOutcome, resultPair, hv, Phase.code]

/-- Two states that differ in the ports step alike where the edge does the same with either. -/
theorem step_ports_congr {s : State} {l : Line s.cfg.n} (hr : l.rst = s.ports.rst)
    (he : edgeEngine { s with ports := l } = edgeEngine s)
    (hc : collectedRecords { s with ports := l } = collectedRecords s)
    (ha : runAtEdge { s with ports := l } = runAtEdge s) : step { s with ports := l } = step s := by
  by_cases h : s.ports.rst = true ∨ s.eng.err ≠ 0b11#2
  · have h' : l.rst = true ∨ s.eng.err ≠ 0b11#2 := hr ▸ h
    rw [step_eq h, step_eq (s := { s with ports := l }) h', ha]
    unfold collect State.withEngine
    simp only [he, hc]
    rfl
  · simp only [not_or, Bool.not_eq_true, not_not] at h
    rw [step_fault h.1 h.2, step_fault (s := { s with ports := l }) (hr.trans h.1) h.2]

/-- No outcome is read at an edge that leaves `done = 0`. -/
theorem outcomesRead_not_done {s : State} (h : (edgeEngine s).phase ≠ .done) : outcomesRead s = [] := by
  have : (outputs (edgeEngine s)).done = false := by
    revert h; rw [outputs_done]; cases (edgeEngine s).phase <;> decide
  rw [outcomesRead, this]
  simp

/-- No outcome is read at an edge without `start` at rest. -/
theorem outcomesRead_hold {s : State} (hp : s.eng.phase = .idle ∨ s.eng.phase = .done)
    (hs : s.ports.start = false) : outcomesRead s = [] := by
  rcases hp with hp | hp <;> simp [outcomesRead, runAtEdge, hp, hs]

/-! The registers after an edge, case by case. -/

theorem edgeEngine_reset {s : State} (h : s.ports.rst = true) : edgeEngine s = Engine.reset s.cfg := by
  simp [edgeEngine, h]

theorem edgeEngine_div {s : State} (hr : s.ports.rst = false) (hp : s.eng.phase = .idle ∨ s.eng.phase = .done)
    (hs : s.ports.start = true) : edgeEngine s = startRun s.cfg s.ports.dividend s.ports.divisor := by
  rcases hp with hp | hp <;> simp [edgeEngine, hr, hp, hs]

theorem edgeEngine_hold {s : State} (hr : s.ports.rst = false) (hp : s.eng.phase = .idle ∨ s.eng.phase = .done)
    (hs : s.ports.start = false) : edgeEngine s = s.eng := by
  rcases hp with hp | hp <;> simp [edgeEngine, hr, hp, hs]

theorem edgeEngine_stall {s : State} (hr : s.ports.rst = false) (hp : s.eng.phase = .iter ∨ s.eng.phase = .corr)
    (hd : s.eng.pend = true) (hy : s.ports.stepReady = false) : edgeEngine s = s.eng := by
  rcases hp with hp | hp <;> simp [edgeEngine, hr, hp, hd, hy]

theorem edgeEngine_iter {s : State} (hr : s.ports.rst = false) (hp : s.eng.phase = .iter)
    (ha : s.eng.pend = false ∨ s.ports.stepReady = true) :
    edgeEngine s = iterate (signFlag (shiftedA s.eng.a s.eng.q)) s.eng := by
  rcases ha with ha | ha <;> simp [edgeEngine, hr, hp, ha]

theorem edgeEngine_corr {s : State} (hr : s.ports.rst = false) (hp : s.eng.phase = .corr)
    (ha : s.eng.pend = false ∨ s.ports.stepReady = true) :
    edgeEngine s = if signFlag s.eng.a then restoreAndFinish s.eng else finishRun s.eng := by
  rcases ha with ha | ha <;> simp [edgeEngine, hr, hp, ha]

/-! The records the host holds after an edge, case by case. -/

theorem collectedRecords_reset {s : State} (h : s.ports.rst = true) : collectedRecords s = [] := by
  simp [collectedRecords, h]

theorem collectedRecords_div {s : State} (hp : s.eng.phase = .idle ∨ s.eng.phase = .done)
    (hs : s.ports.start = true) : collectedRecords s = [] := by
  rcases hp with hp | hp <;> simp [collectedRecords, hp, hs]

theorem collectedRecords_kept {s : State} (hr : s.ports.rst = false)
    (hs : s.ports.start = false ∨ s.eng.phase = .iter ∨ s.eng.phase = .corr)
    (hd : s.eng.pend = false ∨ s.ports.stepReady = false) : collectedRecords s = s.host.records := by
  rcases hs with h | h | h <;> rcases hd with g | g <;> simp [collectedRecords, acceptsRecord, hr, h, g]

theorem collectedRecords_accepted {s : State} (hr : s.ports.rst = false)
    (hp : s.eng.phase = .iter ∨ s.eng.phase = .corr) (hd : s.eng.pend = true) (hy : s.ports.stepReady = true) :
    collectedRecords s = s.host.records ++ [presentedRecord s.eng] := by
  rcases hp with hp | hp <;> simp [collectedRecords, acceptsRecord, hr, hp, hd, hy]

end Sys2Proof.Machine
end

