-- ==== Sys2Proof/Tests/Slice0.lean ====
section
/-! SUPPORT. Tests of single edges, decode words and host actions, with results taken from spec/95_test_vectors.md, and
for every obligation with hypotheses a witness that meets them. -/

namespace Sys2Proof.Tests

open Sys2Proof Sys2Proof.Machine

/-! ## Building small states -/

/-- The engine of one width and policy. -/
def cfgOf (n : Nat) (h : 1 ≤ n) (policy : Div0Policy) : Config where
  n := n
  supportedWidths := [n]
  div0Policy := policy
  n_pos := h
  widths_sorted := by simp
  widths_pos := by simp [h]
  n_supported := by simp

def cfg1 : Config := cfgOf 1 (by decide) .proceed
def cfg4 : Config := cfgOf 4 (by decide) .proceed
def cfg4R : Config := cfgOf 4 (by decide) .reject
def cfg8 : Config := cfgOf 8 (by decide) .proceed

/-- Registers from numbers. -/
def regs (cfg : Config) (a q m cnt : Nat) (phase : Phase) (pend c op : Bool) (err : BitVec 2) : Engine cfg :=
  ⟨BitVec.ofNat _ a, BitVec.ofNat _ q, BitVec.ofNat _ m, BitVec.ofNat _ cnt, phase, pend, c, op, err⟩

/-- Port values from numbers. -/
def lineOf (n : Nat) (rst start ready : Bool) (d v : Nat) : Line n :=
  ⟨rst, start, ready, BitVec.ofNat n d, BitVec.ofNat n v⟩

/-- A state with an idle host. -/
def stateOf {cfg : Config} (e : Engine cfg) (l : Line cfg.n) : State := ⟨cfg, e, l, Collab.empty cfg.n⟩

/-- A host with a plan. -/
def withPlan {cfg : Config} (e : Engine cfg) (l : Line cfg.n) (plan : List (HostCmd cfg.n)) : State :=
  ⟨cfg, e, l, ⟨plan, [], [], []⟩⟩

/-- The registers as numbers. -/
structure RegView where
  a : Nat
  q : Nat
  m : Nat
  cnt : Nat
  phase : Phase
  pend : Bool
  c : Bool
  op : Bool
  err : BitVec 2
  deriving DecidableEq

/-- What an edge left in the registers. -/
def after (o : Host.Outcome State Fault Refusal) : Option RegView :=
  match o with
  | .next t => some ⟨t.eng.a.toNat, t.eng.q.toNat, t.eng.m.toNat, t.eng.cnt.toNat, t.eng.phase,
      t.eng.pend, t.eng.c, t.eng.op, t.eng.err⟩
  | .fault _ => none
  | .refused _ => none

/-- A record as numbers. -/
structure RecordView where
  index : Nat
  a : Nat
  q : Nat
  carry : Bool
  op : Bool
  deriving DecidableEq

/-- The records the host holds after an edge. -/
def recordsAfter (o : Host.Outcome State Fault Refusal) : Option (List RecordView) :=
  match o with
  | .next t => some (t.host.records.map fun r => ⟨r.index, r.a.toNat, r.q.toNat, r.carry, r.op⟩)
  | .fault _ => none
  | .refused _ => none

/-- The micro-operation of the coming edge. -/
def chosen (s : State) : Instr := decode (decodeWordOf s)

/-- N = 4, 11 ÷ 3 with record 1 pending, as STALL-1 of spec/95_test_vectors.md 2.5 has it. -/
def record1 : Engine cfg4 := regs cfg4 0b1110 0b0110 0b0011 1 .iter true true false 0b00

/-- N = 4, 11 ÷ 3 with record 4 pending (STALL-3). -/
def record4 : Engine cfg4 := regs cfg4 0b0010 0b0011 0b0011 4 .corr true true false 0b00

/-- N = 4, DONE after 11 ÷ 3 (HOLD-3). -/
def done11by3 : Engine cfg4 := regs cfg4 0b0010 0b0011 0b0011 4 .done false true false 0b00

/-- N = 4, 9 ÷ 2 with record 4 pending and A negative (STALL-4, CORR-2). -/
def record4Negative : Engine cfg4 := regs cfg4 0b1111 0b0100 0b0010 4 .corr true true true 0b00

/-! ## Well-formedness: each check refuses an ill-formed term (30_encoding.md R74) -/

theorem test_wf_hold_refuses_running :
    (Instr.hold .iter false false).wf = false ∧ (Instr.hold .corr true true).wf = false := by decide
theorem test_wf_div_refuses_running :
    (Instr.div .iter false false).wf = false ∧ (Instr.div .corr true true).wf = false := by decide
theorem test_wf_stall_refuses_rest :
    (Instr.stall .idle false false).wf = false ∧ (Instr.stall .done true true).wf = false := by decide

/-! ## Decode words written out from spec/95_test_vectors.md 2.1 -/

theorem test_decode_reset : decode 0b101101#6 = .reset .iter true false true := by decide
theorem test_decode_hold : decode 0b010010#6 = .hold .done true false := by decide
theorem test_decode_div : decode 0b000110#6 = .div .idle true false := by decide
theorem test_decode_stall : decode 0b001101#6 = .stall .iter true true ∧
    decode 0b011000#6 = .stall .corr false false := by decide
theorem test_decode_stepSub : decode 0b001010#6 = .stepSub false := by decide
theorem test_decode_stepAdd : decode 0b001011#6 = .stepAdd false := by decide
theorem test_decode_corrNone : decode 0b011010#6 = .corrNone false := by decide
theorem test_decode_corrAdd : decode 0b011011#6 = .corrAdd false := by decide
theorem test_decode_refuses_wide_numbers : decodeTableWord 8 64 = none := by decide

/-! ## Single edges, from spec/95_test_vectors.md 2.2 to 2.7 -/

/-- RESET-2: record 2 of 11 ÷ 3 is pending with `ready`; it is withdrawn. -/
theorem test_reset_withdraws :
    let s := stateOf (regs cfg4 0b1111 0b1100 0b0011 2 .iter true false true 0b00) (lineOf 4 true false true 0 0)
    after (step s) = some ⟨0, 0, 0, 0, .idle, false, false, false, 0b00⟩ ∧ recordsAfter (step s) = some [] := by decide
/-- RESET-3: `start` beside `rst` starts nothing. -/
theorem test_reset_over_start :
    after (step (stateOf (Engine.reset cfg4) (lineOf 4 true true false 0b1011 0b0011))) =
      some ⟨0, 0, 0, 0, .idle, false, false, false, 0b00⟩ := by decide
/-- HOLD-2: ready and operands without `start`. -/
theorem test_hold_idle :
    after (step (stateOf (Engine.reset cfg4) (lineOf 4 false false true 0b1111 0b1111))) =
      some ⟨0, 0, 0, 0, .idle, false, false, false, 0b00⟩ := by decide
/-- HOLD-3. -/
theorem test_hold_done :
    after (step (stateOf done11by3 (lineOf 4 false false false 0 0))) =
      some ⟨0b0010, 0b0011, 0b0011, 4, .done, false, true, false, 0b00⟩ := by decide
/-- DIV-2: a zero divisor under PROCEED. -/
theorem test_div_zero_proceed :
    after (step (stateOf (Engine.reset cfg4) (lineOf 4 false true false 0b1001 0))) =
      some ⟨0, 0b1001, 0, 0, .iter, false, false, false, 0b01⟩ := by decide
/-- DIV-3 and DIV-4: a zero divisor under REJECT; a DIV from DONE. -/
theorem test_div_zero_reject_and_from_done :
    after (step (stateOf (Engine.reset cfg4R) (lineOf 4 false true false 0b1001 0))) =
      some ⟨0, 0, 0, 0, .done, false, false, false, 0b10⟩ ∧
    after (step (stateOf done11by3 (lineOf 4 false true false 0b0111 0b0010))) =
      some ⟨0, 0b0111, 0b0010, 0, .iter, false, false, false, 0b00⟩ := by decide
/-- STALL-2: `start` and operands while busy. -/
theorem test_stall_ignores_start :
    let s := stateOf record1 (lineOf 4 false true false 0b0000 0b0001)
    chosen s = .stall .iter true true ∧
    after (step s) = some ⟨0b1110, 0b0110, 0b0011, 1, .iter, true, true, false, 0b00⟩ := by decide
/-- STALL-3: the correction waits for record 4. -/
theorem test_stall_in_corr :
    after (step (stateOf record4 (lineOf 4 false false false 0 0))) =
      some ⟨0b0010, 0b0011, 0b0011, 4, .corr, true, true, false, 0b00⟩ := by decide
/-- STEP-4: the last iteration of 11 ÷ 3 enters CORR and delivers record 3. -/
theorem test_stepSub_last :
    let s := stateOf (regs cfg4 0b0010 0b1001 0b0011 3 .iter true true true 0b00) (lineOf 4 false false true 0 0)
    after (step s) = some ⟨0b0010, 0b0011, 0b0011, 4, .corr, true, true, false, 0b00⟩ ∧
    recordsAfter (step s) = some [⟨3, 0b0010, 0b1001, true, true⟩] := by decide
/-- STEP-17, N = 8. -/
theorem test_stepSub_wraps_below_zero :
    after (step (stateOf (regs cfg8 0 0b11001000 0b00000111 0 .iter false false false 0b00)
      (lineOf 8 false false false 0 0))) =
      some ⟨0b11111010, 0b10010000, 0b00000111, 1, .iter, true, true, false, 0b00⟩ := by decide
/-- STEP-3: the addition wraps above 2^N - 1. -/
theorem test_stepAdd_wraps :
    after (step (stateOf (regs cfg4 0b1111 0b1100 0b0011 2 .iter true false true 0b00)
      (lineOf 4 false false true 0 0))) =
      some ⟨0b0010, 0b1001, 0b0011, 3, .iter, true, true, true, 0b00⟩ := by decide
/-- STEP-13: N = 1, where Q[0] = 1 chooses the addition and the one iteration enters CORR. -/
theorem test_stepAdd_one_bit :
    after (step (stateOf (regs cfg1 0 1 1 0 .iter false false false 0b00) (lineOf 1 false false true 0 0))) =
      some ⟨0, 1, 1, 1, .corr, true, true, true, 0b00⟩ := by decide
/-- CORR-1. -/
theorem test_corrNone :
    let s := stateOf record4 (lineOf 4 false false true 0 0)
    after (step s) = some ⟨0b0010, 0b0011, 0b0011, 4, .done, false, true, false, 0b00⟩ ∧
    recordsAfter (step s) = some [⟨4, 0b0010, 0b0011, true, false⟩] := by decide
/-- CORR-3: 0 ÷ 15, where A is still negative after the one addition. -/
theorem test_corrAdd_still_negative :
    after (step (stateOf (regs cfg4 0b1101 0b1110 0b1111 4 .corr true false true 0b00)
      (lineOf 4 false true true 0 0))) =
      some ⟨0b1100, 0b1110, 0b1111, 4, .done, false, false, true, 0b00⟩ := by decide
/-- CORR-6: the carry out is discarded. -/
theorem test_corrAdd_drops_carry :
    after (step (stateOf (regs cfg4 0b1000 0 0b1000 4 .corr true false false 0b00)
      (lineOf 4 false false true 0 0))) =
      some ⟨0, 0, 0b1000, 4, .done, false, false, false, 0b00⟩ := by decide

/-! ## The word placed in front of the engine, the host and its notation -/

/-- From reset, a placed word is the next edge's (one word per row of spec/opcode_table.json). -/
theorem test_placed_words_are_next :
    [0b100000, 0b000000, 0b000100, 0b001000, 0b001010, 0b001011, 0b011010, 0b011011].all
      (fun w => (decodeWordOf (State.reset.withFetchWord 8 w)).toNat == w) = true := by decide
/-- R82: `start D=1011 V=0011` is 0x2B3 and reads back from its text. -/
theorem test_line_text_and_word :
    Line.read 4 ['s', 't', 'a', 'r', 't', ' ', 'D', '=', '1', '0', '1', '1', ' ', 'V', '=', '0', '0', '1', '1'] =
      some (lineOf 4 false true false 0b1011 0b0011) ∧
    (lineOf 4 false true false 0b1011 0b0011).encode.toNat = 0x2B3 ∧ Line.read 4 ['D', '=', '1'] = none := by decide
/-- spec/95_test_vectors.md 1.9: the strings 102 and the empty one, a truncated one and leading zeros. -/
theorem test_operand_strings :
    validOperandText ['1', '0', '2'] = false ∧ validOperandText [] = false ∧
    (operandOfText 4 ['1', '1', '0', '1', '1', '0']).toNat = 0b0110 ∧
    (operandOfText 4 ['0', '0', '0', '1', '0', '1', '1']).toNat = 0b1011 := by decide
/-- R83: RUN 2 is two lines `ready`; DRAIN ends where `done = 1`. -/
theorem test_pseudo_expansion :
    expandProgram [Pseudo.run 2, .wait] =
      [HostCmd.line (Line.ready 4), .line (Line.ready 4), .line (Line.idle 4)] ∧
    (nextTurn cfg4 false true [.drain, .line (lineOf 4 true false false 0 0)] []).line.rst = true := by decide
/-- What the host drives next: start, step_ready, dividend and divisor. -/
def nextInputs (s : State) : Bool × Bool × Nat × Nat :=
  let l := (driveNext s).ports
  (l.start, l.stepReady, l.dividend.toNat, l.divisor.toNat)

/-- R174: a request waits for `busy = 0` with `ready` on the ports, and is then the DIV line of its operands; an invalid
one (spec/95_test_vectors.md 1.9) is reported while the engine is busy. -/
theorem test_request_waits_for_busy :
    nextInputs (withPlan record1 (lineOf 4 false false true 0 0) [.divide ['1', '0', '1', '1'] ['1', '1'] 4]) =
      (false, true, 0, 0) ∧
    nextInputs (withPlan done11by3 (lineOf 4 false false true 0 0) [.divide ['1', '0', '1', '1'] ['1', '1'] 4]) =
      (true, false, 11, 3) ∧
    (driveNext (withPlan record1 (lineOf 4 false false true 0 0) [.divide ['1', '0', '2'] ['1', '1'] 4])).host.reports =
      [.invalidInput] := by decide

/-- The outcomes the host holds after an edge. -/
def outcomesAfter (n : Nat) (o : Host.Outcome State Fault Refusal) : List (RunOutcome n) :=
  match o with
  | .next t => if h : t.cfg.n = n then h ▸ t.host.outcomes else []
  | .fault _ => []
  | .refused _ => []
/-- spec/95_test_vectors.md 4, P3a edge 6 (9 ÷ 0 under PROCEED, its last record alone collected here) and P3b edge 1. -/
theorem test_outcome_is_read :
    outcomesAfter 4 (step (stateOf (regs cfg4 0b1001 0b1110 0 4 .corr true true true 0b01) (lineOf 4 false false true 0 0))) =
      [.result 0b1110#4 0b1001#4 0b01#2 [⟨4, 0b1001#4, 0b1110#4, true, true⟩]] ∧
    outcomesAfter 4 (step (stateOf (Engine.reset cfg4R) (lineOf 4 false true true 0b1001 0))) = [.rejected] ∧
    outcomesAfter 4 (step (stateOf done11by3 (lineOf 4 false false true 0 0))) = [] := by decide
/-- spec/95_test_vectors.md 2.8, one row inside the domain and one outside it. -/
theorem test_nr_divide :
    (∃ r, nrDivide 9 2 4 .proceed = .result 4#4 1#4 r) ∧ (∃ r, nrDivide 14 7 4 .proceed = .result 2#4 6#4 r) :=
  ⟨⟨_, rfl⟩, ⟨_, rfl⟩⟩

/-! ## Witnesses: for every obligation with hypotheses, inputs that meet them together, one for each clause -/

theorem record1_safe : SafeEngine record1 := ⟨by constructor <;> decide, by decide⟩
theorem record4_safe : SafeEngine record4 := ⟨by constructor <;> decide, by decide⟩
theorem done11by3_safe : SafeEngine done11by3 := ⟨by constructor <;> decide, by decide⟩

/-- The registers of STALL-1 are iteration 1 of 11 ÷ 3 (spec/95_test_vectors.md 1.1), with no record collected. -/
theorem record1_tracks : RunTracks record1 [] (0b1011#4 : Word 4) := by
  show _ ∧ _ ∧ _
  decide

/-- The three records of 11 ÷ 3 that are accepted before the fourth is (spec/95_test_vectors.md 1.1). -/
def records3 : List (StepRecord cfg4.n) :=
  [⟨1, 0b1110#4, 0b0110#4, true, false⟩, ⟨2, 0b1111#4, 0b1100#4, false, true⟩, ⟨3, 0b0010#4, 0b1001#4, true, true⟩]

theorem record4_tracks : RunTracks record4 records3 (0b1011#4 : Word 4) := by
  show _ ∧ _ ∧ _
  decide

theorem done11by3_tracks :
    RunTracks done11by3 (records3 ++ [⟨4, 0b0010#4, 0b0011#4, true, false⟩]) (0b1011#4 : Word 4) := by
  show _ ∧ _
  decide

theorem witness_DecodeEncodeRoundTrip :
    [Instr.reset .corr true true true, .hold .idle false true, .hold .done true false, .div .idle true true,
      .div .done false false, .stall .iter true false, .stall .corr false true, .stepSub true, .stepAdd false,
      .corrNone true, .corrAdd false].all Instr.wf = true := by decide

theorem witness_SelectBitReadsTheSign :
    (record1.phase = .iter ∧ 2 ≤ cfg4.n) ∧
    (cfg1.n = 1 ∧ (regs cfg1 0 1 1 0 .iter false false false 0b00).phase = .iter) ∧
    record4.phase = .corr ∧ (Engine.reset cfg4).phase = .idle ∧ done11by3.phase = .done := by decide

/-- The lowest and the highest word, and a word at rest, whose `sel` bit must be 0. -/
theorem witness_PlacedWordIsTheNextWord : [0, 63, 0b010110].all (fun w =>
    decide (w < 64 ∧ ((wordPhase (BitVec.ofNat 6 w)).atRest = true → w % 2 = 0))) = true := by decide

theorem witness_LineTextRoundTrip : ∃ (n : Nat) (_ : Line n), 1 ≤ n := ⟨1, Line.ready 1, by decide⟩

theorem witness_StepRunsDecodedInstruction :
    (∃ s t : State, s.ports.rst = true ∧ exec (decode (decodeWordOf s)) (collect s) = .next t) ∧
    (∃ s t : State, s.eng.err ≠ 0b11#2 ∧ exec (decode (decodeWordOf s)) (collect s) = .next t) :=
  ⟨⟨stateOf record1 (lineOf 4 true true true 1 1), _, by decide, rfl⟩,
    ⟨stateOf record1 (lineOf 4 false true true 1 1), _, by decide, rfl⟩⟩

theorem witness_OnlyReservedErrStops :
    (stateOf (regs cfg4 0 0 0 0 .idle false false false 0b11) (lineOf 4 true false false 0 0)).ports.rst = true ∧
    (State.reset.ports.rst = false ∧ State.reset.eng.err ≠ 0b11#2) ∧
    (∃ s : State, s.ports.rst = false ∧ s.eng.err = 0b11#2 ∧ step s = .fault .reservedErr) :=
  ⟨by decide, by decide,
    ⟨stateOf (regs cfg4 0 0 0 0 .idle false false false 0b11) (lineOf 4 false true false 9 3), by decide, by decide, rfl⟩⟩

theorem witness_NoStepChangesConfiguration : ∃ s t : State, step s = .next t :=
  ⟨stateOf record1 (lineOf 4 false false true 0 0), _, rfl⟩

theorem witness_ResetClearsEveryRegister :
    (stateOf (regs cfg4 15 15 15 7 .corr true true true 0b11) (lineOf 4 true true true 15 15)).ports.rst = true := by
  decide

theorem witness_ResetWithdrawsPendingRecord : ∃ s : State, s.ports.rst = true ∧ s.eng.pend = true ∧
    s.ports.stepReady = true := ⟨stateOf record1 (lineOf 4 true false true 0 0), by decide⟩

theorem witness_HoldChangesNothing :
    (∃ s : State, s.ports.rst = false ∧ s.eng.phase = .idle ∧ s.ports.start = false) ∧
    (∃ s : State, s.ports.rst = false ∧ s.eng.phase = .done ∧ s.ports.start = false) :=
  ⟨⟨State.reset, by decide⟩, ⟨stateOf done11by3 (lineOf 4 false false true 1 1), by decide⟩⟩

/-- Both rest phases, both busy ones, and the smallest and largest non-zero divisor. -/
theorem witness_DivNonzeroStartsRun :
    (∃ s : State, s.ports.rst = false ∧ s.eng.phase = .idle ∧ s.ports.start = true ∧ s.ports.divisor ≠ 0#_) ∧
    (∃ s : State, s.ports.rst = false ∧ s.eng.phase = .done ∧ s.ports.start = true ∧ s.ports.divisor ≠ 0#_) ∧
    record1.phase = .iter ∧ record4.phase = .corr :=
  ⟨⟨stateOf (Engine.reset cfg4) (lineOf 4 false true false 11 1), by decide⟩,
    ⟨stateOf done11by3 (lineOf 4 false true true 0 15), by decide⟩, by decide⟩

theorem witness_DivZeroProceeds : ∃ s : State, s.ports.divisor = 0#_ ∧ s.cfg.div0Policy = .proceed :=
  ⟨stateOf (Engine.reset cfg4) (lineOf 4 false true false 9 16), by decide⟩

theorem witness_DivZeroRejects : ∃ s : State, (s.ports.divisor = 0#_ ∧ s.cfg.div0Policy = .reject) ∧
    ∃ l : Line s.cfg.n, l.rst = false ∧ l.start = true :=
  ⟨stateOf (Engine.reset cfg4R) (lineOf 4 false true false 9 0), by decide, lineOf 4 false true false 12 4, by decide⟩

/-- STEP-1 (nothing pending, A = 0) and STEP-6, whose shifted A is the largest that subtracts. -/
theorem witness_StepSubIterates :
    let s := stateOf (regs cfg4 0 0b1011 0b0011 0 .iter false false false 0b00) (lineOf 4 false false false 0 0)
    let t := stateOf (regs cfg4 0b0011 0b1000 1 1 .iter true false false 0b00) (lineOf 4 false false true 0 0)
    (s.ports.rst = false ∧ s.eng.phase = .iter ∧ s.eng.pend = false ∧ s.eng.a = 0#_ ∧ 2 ≤ s.cfg.n ∧
      (2 * s.eng.a.toNat + (s.eng.q.getLsbD (s.cfg.n - 1)).toNat) % 2 ^ s.cfg.n < 2 ^ (s.cfg.n - 1)) ∧
    (t.ports.rst = false ∧ t.eng.phase = .iter ∧ t.ports.stepReady = true ∧
      (2 * t.eng.a.toNat + (t.eng.q.getLsbD (t.cfg.n - 1)).toNat) % 2 ^ t.cfg.n = 2 ^ (t.cfg.n - 1) - 1) := by decide

/-- STEP-7, whose shifted A is the smallest that adds, and STEP-12. -/
theorem witness_StepAddIterates :
    let s := stateOf (regs cfg4 0b0100 0 1 0 .iter false false false 0b00) (lineOf 4 false false false 0 0)
    let t := stateOf (regs cfg4 0b1111 0b1111 0b1111 3 .iter true false false 0b00) (lineOf 4 false false true 0 0)
    (s.ports.rst = false ∧ s.eng.phase = .iter ∧ s.eng.pend = false ∧
      (2 * s.eng.a.toNat + (s.eng.q.getLsbD (s.cfg.n - 1)).toNat) % 2 ^ s.cfg.n = 2 ^ (s.cfg.n - 1)) ∧
    (t.ports.rst = false ∧ t.eng.phase = .iter ∧ t.ports.stepReady = true ∧
      2 ^ (t.cfg.n - 1) ≤ (2 * t.eng.a.toNat + (t.eng.q.getLsbD (t.cfg.n - 1)).toNat) % 2 ^ t.cfg.n) := by decide

/-- A selected micro-operation at whose edge a record is pending, one for each of STEP.SUB, STEP.ADD, CORR.NONE, CORR.ADD. -/
theorem witness_pending_record_accepted :
    let sub := stateOf (regs cfg4 0b0010 0b1001 0b0011 3 .iter true true true 0b00) (lineOf 4 false false true 0 0)
    let add := stateOf record1 (lineOf 4 false false true 0 0)
    let none' := stateOf record4 (lineOf 4 false false true 0 0)
    let corr := stateOf record4Negative (lineOf 4 false true true 0 0)
    (chosen sub = .stepSub false ∧ sub.eng.pend = true) ∧ (chosen add = .stepAdd false ∧ add.eng.pend = true) ∧
    (chosen none' = .corrNone false ∧ none'.eng.pend = true) ∧
    (chosen corr = .corrAdd true ∧ corr.eng.pend = true) := by decide

theorem witness_StallChangesNothing :
    (∃ s : State, s.ports.rst = false ∧ s.eng.phase = .iter ∧ s.eng.pend = true ∧ s.ports.stepReady = false) ∧
    (∃ s : State, s.ports.rst = false ∧ s.eng.phase = .corr ∧ s.eng.pend = true ∧ s.ports.stepReady = false) :=
  ⟨⟨stateOf record1 (lineOf 4 false true false 1 1), by decide⟩, ⟨stateOf record4 (lineOf 4 false false false 0 0), by decide⟩⟩

/-- The largest A that needs no correction. -/
theorem witness_CorrNoneFinishes : ∃ s : State, s.ports.rst = false ∧ s.eng.phase = .corr ∧
    s.ports.stepReady = true ∧ s.eng.a.toNat < 2 ^ (s.cfg.n - 1) :=
  ⟨stateOf (regs cfg4 0b0111 0 3 4 .corr true false false 0b00) (lineOf 4 false true true 0 0), by decide⟩

/-- CORR-6: the smallest A that is corrected. -/
theorem witness_CorrAddRestores : ∃ s : State, s.ports.rst = false ∧ s.eng.phase = .corr ∧
    s.ports.stepReady = true ∧ 2 ^ (s.cfg.n - 1) ≤ s.eng.a.toNat :=
  ⟨stateOf (regs cfg4 0b1000 0 0b1000 4 .corr true false false 0b00) (lineOf 4 false false true 0 0), by decide⟩

theorem witness_ArithmeticNeverFails :
    isIteration (.stepSub true) = true ∧ isIteration (.stepAdd false) = true ∧
    isCorrection (.corrNone true) = true ∧ isCorrection (.corrAdd false) = true := by decide

theorem witness_ExecChangesOnlyRegisters : ∃ t, exec (.stall .iter true false) State.reset = .next t ∧
    writesAll (.stall .iter true false) = false ∧ isIteration (.stall .iter true false) = false ∧
    isCorrection (.stall .iter true false) = false := ⟨_, rfl, by decide⟩

theorem witness_AlgorithmicRegisterWriters :
    (∃ t, exec (.stepSub false) (stateOf record1 (lineOf 4 false false true 0 0)) = .next t) ∧
    (∃ t, exec (.corrNone false) (stateOf record4 (lineOf 4 false false true 0 0)) = .next t) ∧
    writesAll (.stepSub false) = false ∧ writesAll (.corrNone false) = false ∧
    isIteration (.corrNone false) = false ∧ isRestoring (.corrNone false) = false :=
  ⟨⟨_, rfl⟩, ⟨_, rfl⟩, by decide⟩

theorem witness_SequencingRegisterWriters :
    (∃ t, exec (.corrAdd false) (stateOf record4Negative (lineOf 4 false false true 0 0)) = .next t) ∧
    (∃ t, exec (.hold .idle true false) State.reset = .next t) ∧
    writesAll (.corrAdd false) = false ∧ isIteration (.corrAdd false) = false ∧
    writesAll (.hold .idle true false) = false ∧ isIteration (.hold .idle true false) = false ∧
    isCorrection (.hold .idle true false) = false := ⟨⟨_, rfl⟩, ⟨_, rfl⟩, by decide⟩

theorem witness_StepKeepsEngineInvariants : ∃ s t : State, SafeEngine s.eng ∧ step s = .next t :=
  ⟨stateOf record4 (lineOf 4 false false true 0 0), _, record4_safe, rfl⟩

theorem witness_ReachableStatesMeetInvariants : ∃ t,
    stepN 2 ⟨cfg4, (State.resetOf cfg4).eng, lineOf 4 false true false 11 3, Collab.empty 4⟩ = .next t := ⟨_, rfl⟩

theorem witness_StepKeepsRunAgreement : ∃ s t : State, MachineInv s ∧ step s = .next t :=
  ⟨stateOf record1 (lineOf 4 false false true 0 0), _, ⟨record1_safe, _, record1_tracks⟩, rfl⟩

/-- Where the host reads no outcome: a reset edge, and HOLD in IDLE and DONE. -/
theorem witness_RunFollowsItsOperands_no_outcome :
    (stateOf record1 (lineOf 4 true true true 0 0)).ports.rst = true ∧
    (State.reset.eng.err ≠ 0b11#2 ∧ State.reset.ports.start = false ∧ State.reset.eng.phase = .idle) ∧
    (done11by3.err ≠ 0b11#2 ∧ (stateOf done11by3 (lineOf 4 false false true 0 0)).ports.start = false ∧
      done11by3.phase = .done) := by decide

/-- The edge that ends a run, by an accepted record in CORR, and one that does not, in ITER. -/
theorem witness_RunFollowsItsOperands_outcome :
    (∃ (s : State) (d : Word s.cfg.n), SafeEngine s.eng ∧ RunTracks s.eng s.host.records d ∧
      s.eng.phase = .corr ∧ s.ports.rst = false ∧ s.ports.stepReady = true ∧ s.eng.m ≠ 0#_) ∧
    (∃ (s : State) (d : Word s.cfg.n), SafeEngine s.eng ∧ RunTracks s.eng s.host.records d ∧
      s.eng.phase = .iter ∧ s.ports.rst = false ∧ s.cfg.div0Policy = .proceed) :=
  ⟨⟨⟨cfg4, record4, lineOf 4 false false true 0 0, ⟨[], records3, [], []⟩⟩, (0b1011#4 : Word 4), record4_safe,
      record4_tracks, by decide⟩,
    ⟨stateOf record1 (lineOf 4 false false true 0 0), (0b1011#4 : Word 4), record1_safe, record1_tracks, by decide⟩⟩

/-- The first three clauses: a DIV that starts a run and one that is rejected, an edge of a run, and a finished run. -/
theorem witness_RunFollowsItsOperands :
    (∃ s : State, s.ports.rst = false ∧ s.ports.start = true ∧ s.eng.phase = .idle ∧ s.eng.err ≠ 0b11#2 ∧
      nrDivide s.ports.dividend.toNat s.ports.divisor.toNat s.cfg.n s.cfg.div0Policy = .rejected) ∧
    (∃ s : State, s.ports.rst = false ∧ s.ports.start = true ∧ s.eng.phase = .done ∧ s.eng.err ≠ 0b11#2 ∧
      nrDivide s.ports.dividend.toNat s.ports.divisor.toNat s.cfg.n s.cfg.div0Policy ≠ .rejected) ∧
    (∃ (s : State) (d : Word s.cfg.n), SafeEngine s.eng ∧ RunTracks s.eng s.host.records d ∧
      s.eng.phase = .iter ∧ s.ports.rst = false) ∧
    (∃ (s : State) (d : Word s.cfg.n), RunTracks s.eng s.host.records d ∧ s.eng.phase = .done ∧
      s.eng.err ≠ 0b10#2 ∧ s.eng.m ≠ 0#_) :=
  ⟨⟨stateOf (Engine.reset cfg4R) (lineOf 4 false true false 9 0), by decide, by decide, by decide, by decide, rfl⟩,
    ⟨stateOf done11by3 (lineOf 4 false true false 9 0), by decide⟩,
    ⟨stateOf record1 (lineOf 4 false false true 0 0), (0b1011#4 : Word 4), record1_safe, record1_tracks, by decide⟩,
    ⟨⟨cfg4, done11by3, lineOf 4 false false false 0 0, ⟨[], records3 ++ [⟨4, 0b0010#4, 0b0011#4, true, false⟩], [], []⟩⟩,
      (0b1011#4 : Word 4), done11by3_tracks, by decide⟩⟩

theorem witness_ReadyHostFinishesRun :
    (∃ s : State, s.ports.rst = false ∧ s.ports.start = true ∧ s.eng.phase = .idle ∧ s.eng.err ≠ 0b11#2 ∧
      s.ports.divisor ≠ 0#_ ∧
      s.host.plan = List.replicate (s.cfg.n + 1) (.line (Line.ready s.cfg.n)) ++ []) ∧
    (∃ s : State, s.ports.rst = false ∧ s.ports.start = true ∧ s.eng.phase = .done ∧ s.eng.err ≠ 0b11#2 ∧
      s.cfg.div0Policy = .proceed ∧ s.host.plan = .drain :: []) :=
  ⟨⟨withPlan (Engine.reset cfg4) (lineOf 4 false true false 11 3) (List.replicate 5 (.line (Line.ready 4))), by decide⟩,
    ⟨withPlan done11by3 (lineOf 4 false true true 9 0) [.drain], by decide⟩⟩

theorem witness_RecordsComeInOrder :
    (∃ (s : State) (d : Word s.cfg.n), EngineInv s.eng ∧ RunTracks s.eng s.host.records d ∧
      s.eng.phase = .corr ∧ s.eng.err ≠ 0b10#2) :=
  ⟨⟨cfg4, record4, lineOf 4 false false true 0 0, ⟨[], records3, [], []⟩⟩, (0b1011#4 : Word 4), record4_safe.1,
    record4_tracks, by decide⟩

theorem witness_RecordHeldUntilAccepted :
    (∃ s : State, s.ports.rst = false ∧ s.eng.err ≠ 0b11#2 ∧ s.eng.phase = .iter ∧ s.eng.pend = true ∧
      s.ports.stepReady = false) ∧
    (∃ s : State, s.ports.rst = false ∧ s.eng.err ≠ 0b11#2 ∧ s.eng.phase = .corr ∧ s.eng.pend = true ∧
      s.ports.stepReady = true) :=
  ⟨⟨stateOf record1 (lineOf 4 false false false 0 0), by decide⟩, ⟨stateOf record4 (lineOf 4 false true true 0 0), by decide⟩⟩

theorem witness_AcceptedEdgesMakeProgress :
    (∃ s : State, EngineInv s.eng ∧ s.ports.rst = false ∧ s.eng.phase = .iter ∧ s.eng.pend = true ∧
      s.ports.stepReady = false) ∧
    (∃ s : State, EngineInv s.eng ∧ s.ports.rst = false ∧ s.eng.phase = .corr ∧ s.ports.stepReady = true) :=
  ⟨⟨stateOf record1 (lineOf 4 false false false 0 0), record1_safe.1, by decide⟩,
    ⟨stateOf record4 (lineOf 4 false false true 0 0), record4_safe.1, by decide⟩⟩

theorem witness_NeverReadyHostStallsForever : ∃ s : State, (s.eng.err ≠ 0b11#2 ∧ s.eng.phase = .corr ∧
    s.eng.pend = true ∧ s.ports.rst = false ∧ s.ports.stepReady = false) ∧
    (∀ c ∈ s.host.plan, ∃ l : Line s.cfg.n, c = .line l ∧ l.rst = false ∧ l.stepReady = false) :=
  ⟨withPlan record4 (lineOf 4 false false false 0 0) [.line (lineOf 4 false true false 15 1)], by decide, by
    intro c hc
    cases List.mem_singleton.1 hc
    exact ⟨_, rfl, by decide⟩⟩

theorem witness_DoneIsHeld : ∃ s : State, (s.eng.err ≠ 0b11#2 ∧ s.eng.phase = .done ∧
    s.ports.rst = false ∧ s.ports.start = false) ∧
    (∀ c ∈ s.host.plan, ∃ l : Line s.cfg.n, c = .line l ∧ l.rst = false ∧ l.start = false) :=
  ⟨withPlan done11by3 (lineOf 4 false false true 0 0) [.line (lineOf 4 false false true 15 1)], by decide, by
    intro c hc
    cases List.mem_singleton.1 hc
    exact ⟨_, rfl, by decide⟩⟩

theorem witness_DivForgetsThePast : ∃ (e₁ e₂ : Engine cfg4) (l : Line cfg4.n), e₁.phase = .idle ∧ e₂.phase = .done ∧
    e₁.err ≠ 0b11#2 ∧ e₂.err ≠ 0b11#2 ∧ l.rst = false ∧ l.start = true :=
  ⟨Engine.reset cfg4, done11by3, lineOf 4 false true false 7 2, by decide⟩

theorem witness_StartIgnoredWhileBusy :
    (stateOf record1 (lineOf 4 false false true 0 0)).eng.phase = .iter ∧
    (stateOf record4 (lineOf 4 false false true 0 0)).eng.phase = .corr ∧
    validOperandText ['1', '0', '1', '1'] = true ∧ validOperandText ['1', '1'] = true ∧
    (withPlan record1 (lineOf 4 false false true 0 0) [.divide ['1', '0', '1', '1'] ['1', '1'] 4]).host.plan =
      .divide ['1', '0', '1', '1'] ['1', '1'] cfg4.n :: [] ∧
    (withPlan done11by3 (lineOf 4 false false true 0 0) [.divide ['1', '0', '1', '1'] ['1', '1'] 4]).eng.phase =
      .done := by decide

theorem witness_OperandsSampledOnlyAtDiv :
    (stateOf done11by3 (lineOf 4 true true false 9 3)).ports.rst = true ∧
    (stateOf done11by3 (lineOf 4 false false false 9 3)).ports.start = false ∧
    (stateOf record1 (lineOf 4 false true true 9 3)).eng.phase = .iter ∧
    (stateOf record4 (lineOf 4 false true true 9 3)).eng.phase = .corr := by decide

theorem witness_ReadyWithoutRecordHasNoEffect :
    ∃ s : State, s.ports.rst = false ∧ s.eng.err ≠ 0b11#2 ∧ s.eng.phase = .iter ∧ s.eng.pend = false ∧
      s.ports.stepReady = true :=
  ⟨stateOf (regs cfg4 0 11 3 0 .iter false false false 0b00) (lineOf 4 false false true 0 0), by decide⟩

theorem witness_CarryLaw : ∃ (n : Nat) (_ : Word n) (i : Nat), 1 ≤ i ∧ i ≤ n := ⟨1, 1#1, 1, by decide⟩

theorem witness_QuotientRegisterLaw : ∃ (n : Nat) (_ : Word n) (i : Nat), 1 ≤ n ∧ i ≤ n := ⟨1, 1#1, 0, by decide⟩

theorem witness_OperationSelectionLaw : ∃ (n : Nat) (_ : Word n) (i : Nat), 2 ≤ n ∧ 1 ≤ i ∧ i ≤ n :=
  ⟨2, 3#2, 2, by decide⟩

theorem witness_ZeroDivisorIterations :
    (∃ (n : Nat) (_ : Word n) (i : Nat), 1 ≤ i ∧ i < n) ∧ (∃ (n : Nat) (_ : Word n) (i : Nat), 1 ≤ i ∧ i = n) :=
  ⟨⟨4, 9#4, 3, by decide⟩, ⟨1, 1#1, 1, by decide⟩⟩

theorem witness_ZeroDivisorResult : ∃ (n : Nat) (_ : Word n), 1 ≤ n := ⟨1, 1#1, by decide⟩

/-- The least width, whose one divisor is both the smallest and the largest, and the largest at N = 8. -/
theorem witness_SignedRecurrence :
    (∃ (n : Nat) (m : Word n) (i : Nat), 2 ≤ n ∧ 1 ≤ m.toNat ∧ m.toNat = 2 ^ (n - 2) ∧ 1 ≤ i ∧ i ≤ n) ∧
    (2 ≤ 8 ∧ 1 ≤ (64#8).toNat ∧ (64#8).toNat ≤ 2 ^ (8 - 2)) :=
  ⟨⟨2, 1#2, 2, by decide⟩, by decide⟩

theorem witness_TrueDivisionOnSmallDivisors : ∃ n dividend divisor : Nat, 2 ≤ n ∧ dividend < 2 ^ n ∧
    1 ≤ divisor ∧ divisor ≤ 2 ^ (n - 2) := ⟨8, 255, 64, by decide⟩

theorem witness_TrueDivisionByTopPower : ∃ n dividend : Nat, 1 ≤ n ∧ dividend < 2 ^ n := ⟨1, 1, by decide⟩

theorem witness_LargestDividendByOne : ∃ n : Nat, 1 ≤ n ∧ 2 ≤ n := ⟨2, by decide⟩

theorem witness_ElaborationRefusesBadWidths :
    (0 : Int) ≤ 0 ∧ (-3 : Int) ≤ 0 ∧ elaborate 4 [4] .proceed = .ok cfg4 ∧
    elaborate 3 [4, 8] .proceed = .error .unsupportedWidth := ⟨by decide, by decide, rfl, rfl⟩

/-- R10's examples: N = 1, 4, 8 give CW = 1, 3, 4. -/
theorem witness_CounterWidth : cfg1.cw = 1 ∧ cfg4.cw = 3 ∧ cfg8.cw = 4 ∧ 1 ≤ 3 ∧ cfg4.n < 2 ^ 3 := by decide

theorem witness_OperandTextIsTruncated :
    validOperandText ['1', '1', '0', '1', '1', '0'] = true ∧ validOperandText ['1'] = true ∧
    ['1'].length ≤ 4 := by decide

theorem witness_InvalidInputIssuesNoDiv : validOperandText ['1', ' ', '0'] = false ∧
    validOperandText [] = false ∧ (3 : Int) ≠ (State.reset.cfg.n : Int) := by decide

theorem witness_PresentedBinaryIsPadded : binaryText 5#8 = ['0', '0', '0', '0', '0', '1', '0', '1'] := by decide

end Sys2Proof.Tests
end

/-! PROOF. The counter width (spec/00_scope.md R10) and the frame of all eight micro-operations (R14). -/

namespace Sys2Proof.Machine

/-- A width of at least 1 is at least CW exactly when it holds N (R10). -/
theorem cw_le_iff (cfg : Config) {w : Nat} (hw : 1 ≤ w) : cfg.cw ≤ w ↔ cfg.n < 2 ^ w := by
  have hn : cfg.n ≠ 0 := Nat.one_le_iff_ne_zero.1 cfg.n_pos
  rw [Config.cw, max_le_iff, and_iff_right hw, Nat.succ_le_iff, Nat.log2_lt hn]

/-- The ceiling of `log2(N+1)` is one more than the position of the highest set bit of `N`. -/
theorem clog_succ_eq_log2_succ {n : Nat} (hn : 1 ≤ n) : Nat.clog 2 (n + 1) = n.log2 + 1 := by
  refine eq_of_forall_ge_iff fun w => ?_
  rw [Nat.clog_le_iff_le_pow Nat.one_lt_two, Nat.succ_le_iff, Nat.succ_le_iff,
    Nat.log2_lt (Nat.one_le_iff_ne_zero.1 hn)]

/-- Settles O57: CW is the least width that holds N, since the ceiling in R10 is `log2 N + 1`. -/
theorem counterWidth : Obligations.CounterWidth := by
  intro cfg
  refine ⟨?_, n_lt_two_pow_cw cfg, fun w hw hfit => (cw_le_iff cfg hw).2 hfit⟩
  rw [clog_succ_eq_log2_succ cfg.n_pos, Config.cw]

/-- Settles O24: by the equation of `exec`, arm by arm. -/
theorem execChangesOnlyRegisters : Obligations.ExecChangesOnlyRegisters := by
  intro i s t h
  rw [exec_eq] at h
  obtain rfl := Host.Outcome.next.inj h
  refine ⟨_, rfl, fun hwrites hiter hcorr => ?_⟩
  cases i with
  | hold | stall => rfl
  | reset | div => cases hwrites
  | stepSub | stepAdd => cases hiter
  | corrNone | corrAdd => cases hcorr

end Sys2Proof.Machine

/-! PROOF. The inductive form of the invariants of R35, phase by phase, and that every edge keeps it. -/

namespace Sys2Proof.Machine

variable {cfg : Config} {e : Engine cfg}

/-- What `SafeEngine` says of ERR while a run is in progress. -/
def RunErr (e : Engine cfg) : Prop :=
  e.err ≠ 0b10#2 ∧ e.err ≠ 0b11#2 ∧ (e.err = 0b01#2 → e.m = 0#cfg.n)

theorem SafeEngine.runErr (h : SafeEngine e) (hp : e.phase ≠ .done) : RunErr e :=
  ⟨fun herr => hp (h.2 herr), h.1.errNotReserved, h.1.warnedDivisorIsZero⟩

theorem safeEngine_iter_iff (hp : e.phase = .iter) :
    SafeEngine e ↔ e.cnt.toNat < cfg.n ∧ (e.pend = true → 1 ≤ e.cnt.toNat) ∧ RunErr e := by
  constructor
  · intro h
    exact ⟨h.1.iterBelowN hp, fun hd => (h.1.pendingInRun hd).1, h.runErr (by simp [hp])⟩
  · rintro ⟨hcnt, hpend, hreject, hreserved, hwarned⟩
    refine ⟨?_, fun herr => absurd herr hreject⟩
    constructor <;> simp_all

theorem safeEngine_corr_iff (hp : e.phase = .corr) :
    SafeEngine e ↔ e.cnt.toNat = cfg.n ∧ RunErr e := by
  have hn := cfg.n_pos
  constructor
  · intro h
    exact ⟨h.1.corrAtN hp, h.runErr (by simp [hp])⟩
  · rintro ⟨hcnt, hreject, hreserved, hwarned⟩
    refine ⟨?_, fun herr => absurd herr hreject⟩
    constructor <;> simp_all

/-- A run that ended without a refusal, with no record pending, meets the invariant. -/
theorem safeEngine_of_done (hp : e.phase = .done) (hd : e.pend = false) (hcnt : e.cnt.toNat = cfg.n)
    (herr : RunErr e) : SafeEngine e := by
  obtain ⟨hreject, hreserved, hwarned⟩ := herr
  refine ⟨?_, fun h => absurd h hreject⟩
  constructor <;> simp_all

theorem safeEngine_reset (cfg : Config) : SafeEngine (Engine.reset cfg) := by
  refine ⟨?_, by simp⟩
  constructor <;> simp

theorem safeEngine_rejectRun (cfg : Config) : SafeEngine (rejectRun cfg) := by
  refine ⟨?_, by simp⟩
  constructor <;> simp

/-- A run begins safely when its code is that of its divisor. -/
theorem safeEngine_loadRun (d v : Word cfg.n) {code : ErrCode} (hcode : code ≠ .div0Reject)
    (hzero : code = .div0Proceed → v = 0#cfg.n) : SafeEngine (loadRun cfg d v code) := by
  rw [safeEngine_iter_iff rfl]
  refine ⟨by simpa [Nat.succ_le_iff] using cfg.n_pos, by simp, ?_⟩
  cases code <;> simp_all [RunErr, ErrCode.code]

theorem safeEngine_startRun (cfg : Config) (d v : Word cfg.n) : SafeEngine (startRun cfg d v) := by
  obtain ⟨-, h⟩ | ⟨hv, -, h⟩ | ⟨-, -, h⟩ := startRun_cases cfg d v <;> rw [h]
  · exact safeEngine_loadRun d v (by decide) nofun
  · exact safeEngine_loadRun d v (by decide) (fun _ => hv)
  · exact safeEngine_rejectRun cfg

theorem safeEngine_iterate (op : Bool) (hp : e.phase = .iter) (h : SafeEngine e) : SafeEngine (iterate op e) := by
  obtain ⟨hcnt, -, herr⟩ := (safeEngine_iter_iff hp).1 h
  have hcnt' : (iterate op e).cnt.toNat = e.cnt.toNat + 1 := cnt_succ_toNat e.cnt hcnt
  by_cases hlast : e.cnt.toNat + 1 = cfg.n
  · exact (safeEngine_corr_iff (by simp [hlast])).2 ⟨hcnt'.trans hlast, herr⟩
  · exact (safeEngine_iter_iff (by simp [hlast, hp])).2 ⟨by omega, fun _ => by omega, herr⟩

theorem safeEngine_finishRun (hp : e.phase = .corr) (h : SafeEngine e) : SafeEngine (finishRun e) := by
  obtain ⟨hcnt, herr⟩ := (safeEngine_corr_iff hp).1 h
  exact safeEngine_of_done rfl rfl hcnt herr

theorem safeEngine_restoreAndFinish (hp : e.phase = .corr) (h : SafeEngine e) :
    SafeEngine (restoreAndFinish e) := by
  obtain ⟨hcnt, herr⟩ := (safeEngine_corr_iff hp).1 h
  exact safeEngine_of_done rfl rfl hcnt herr

theorem Phase.rest_or_run (p : Phase) : (p = .idle ∨ p = .done) ∨ (p = .iter ∨ p = .corr) := by
  cases p <;> simp

/-- What an edge makes of the registers: a reset; at rest a DIV or nothing; in a run a stall or the micro-operation
that is due. -/
theorem edgeEngine_cases (s : State) :
    (s.ports.rst = true ∧ edgeEngine s = Engine.reset s.cfg) ∨
    s.ports.rst = false ∧
      ((s.eng.phase = .idle ∨ s.eng.phase = .done) ∧
          (s.ports.start = true ∧ edgeEngine s = startRun s.cfg s.ports.dividend s.ports.divisor ∨
            s.ports.start = false ∧ edgeEngine s = s.eng) ∨
        (s.eng.phase = .iter ∨ s.eng.phase = .corr) ∧
          (s.eng.pend = true ∧ s.ports.stepReady = false ∧ edgeEngine s = s.eng ∨
            (s.eng.pend = false ∨ s.ports.stepReady = true) ∧
              (s.eng.phase = .iter ∧ edgeEngine s = iterate (signFlag (shiftedA s.eng.a s.eng.q)) s.eng ∨
                s.eng.phase = .corr ∧
                  edgeEngine s = if signFlag s.eng.a then restoreAndFinish s.eng else finishRun s.eng))) := by
  cases hr : s.ports.rst
  · refine .inr ⟨rfl, ?_⟩
    rcases Phase.rest_or_run s.eng.phase with hp | hp
    · refine .inl ⟨hp, ?_⟩
      cases hs : s.ports.start
      · exact .inr ⟨rfl, edgeEngine_hold hr hp hs⟩
      · exact .inl ⟨rfl, edgeEngine_div hr hp hs⟩
    · refine .inr ⟨hp, ?_⟩
      by_cases ha : s.eng.pend = false ∨ s.ports.stepReady = true
      · exact .inr ⟨ha, hp.imp (fun h => ⟨h, edgeEngine_iter hr h ha⟩) (fun h => ⟨h, edgeEngine_corr hr h ha⟩)⟩
      · obtain ⟨hd, hy⟩ : s.eng.pend = true ∧ s.ports.stepReady = false := by simpa using ha
        exact .inl ⟨hd, hy, edgeEngine_stall hr hp hd hy⟩
  · exact .inl ⟨rfl, edgeEngine_reset hr⟩

/-- Every edge keeps the invariants of R35, whatever is on the ports. -/
theorem safeEngine_edgeEngine {s : State} (h : SafeEngine s.eng) : SafeEngine (edgeEngine s) := by
  obtain ⟨-, he⟩ | ⟨-, ⟨-, ⟨-, he⟩ | ⟨-, he⟩⟩ | ⟨-, ⟨-, -, he⟩ | ⟨-, ⟨hp, he⟩ | ⟨hp, he⟩⟩⟩⟩ :=
    edgeEngine_cases s <;> rw [he]
  · exact safeEngine_reset s.cfg
  · exact safeEngine_startRun s.cfg _ _
  · exact h
  · exact h
  · exact safeEngine_iterate _ hp h
  · split
    · exact safeEngine_restoreAndFinish hp h
    · exact safeEngine_finishRun hp h

end Sys2Proof.Machine

/-! PROOF. The agreement of the machine with the loop of `nr_divide` (spec/42_correction.md R155): its rules phase by
phase, and that every edge keeps it. -/

namespace Sys2Proof.Machine

section Rules
variable {cfg : Config} {e : Engine cfg} {records : List (StepRecord cfg.n)} {d : Word cfg.n}

theorem runTracks_idle_iff (hp : e.phase = .idle) : RunTracks e records d ↔ records = [] := by
  simp [RunTracks, hp]

theorem runTracks_run_iff (hp : e.phase = .iter ∨ e.phase = .corr) :
    RunTracks e records d ↔
      (⟨e.a, e.q, e.c, e.op⟩ : IterOut cfg.n) = iterAt d e.m e.cnt.toNat ∧
        records = stepsUpTo d e.m (e.cnt.toNat - e.pend.toNat) ∧ (e.pend = false → e.cnt.toNat = 0) := by
  rcases hp with hp | hp <;> simp [RunTracks, hp]

theorem runTracks_rejected_iff (hp : e.phase = .done) (he : e.err = 0b10#2) :
    RunTracks e records d ↔ records = [] := by
  simp [RunTracks, hp, he]

theorem runTracks_done_iff (hp : e.phase = .done) (he : e.err ≠ 0b10#2) :
    RunTracks e records d ↔
      (⟨e.a, e.q, e.c, e.op⟩ : IterOut cfg.n) =
          { iterAt d e.m cfg.n with a := correctedA (iterAt d e.m cfg.n).a e.m } ∧
        records = stepsUpTo d e.m cfg.n := by
  simp [RunTracks, hp, he]

/-- A run begins in step with the loop: no iteration is done and no record delivered. -/
theorem runTracks_loadRun (d v : Word cfg.n) (code : ErrCode) : RunTracks (loadRun cfg d v code) [] d := by
  simp [runTracks_run_iff]

/-- A DIV begins a run on its dividend, or is refused. -/
theorem runTracks_startRun (d v : Word cfg.n) : RunTracks (startRun cfg d v) [] d := by
  obtain ⟨-, h⟩ | ⟨-, -, h⟩ | ⟨-, -, h⟩ := startRun_cases cfg d v <;> rw [h]
  · exact runTracks_loadRun d v .none
  · exact runTracks_loadRun d v .div0Proceed
  · exact (runTracks_rejected_iff rfl rfl).2 rfl

/-- The record on the ports is the loop's record `CNT`. -/
theorem presentedRecord_eq_recordAt (h : (⟨e.a, e.q, e.c, e.op⟩ : IterOut cfg.n) = iterAt d e.m e.cnt.toNat) :
    presentedRecord e = recordAt d e.m e.cnt.toNat := by
  rw [presentedRecord_eq, recordAt, ← h]

/-- The iteration that `sel` chooses is the loop's next one. -/
theorem runTracks_iterate (hp : e.phase = .iter) (hcnt : e.cnt.toNat < cfg.n)
    (h : (⟨e.a, e.q, e.c, e.op⟩ : IterOut cfg.n) = iterAt d e.m e.cnt.toNat) :
    RunTracks (iterate (signFlag (shiftedA e.a e.q)) e) (stepsUpTo d e.m e.cnt.toNat) d := by
  have hphase : (iterate (signFlag (shiftedA e.a e.q)) e).phase = .iter ∨
      (iterate (signFlag (shiftedA e.a e.q)) e).phase = .corr := by
    rw [iterate_phase]; split
    · exact .inr rfl
    · exact .inl hp
  rw [runTracks_run_iff hphase, iterate_cnt, cnt_succ_toNat e.cnt hcnt, iterate_m, iterAt_succ, ← h]
  exact ⟨rfl, rfl, by simp⟩

/-- The correction that the sign of A chooses is the one `nr_divide` makes. -/
theorem runTracks_correction (hcnt : e.cnt.toNat = cfg.n) (he : e.err ≠ 0b10#2)
    (h : (⟨e.a, e.q, e.c, e.op⟩ : IterOut cfg.n) = iterAt d e.m e.cnt.toNat) :
    RunTracks (if signFlag e.a then restoreAndFinish e else finishRun e) (stepsUpTo d e.m e.cnt.toNat) d := by
  rw [hcnt] at h ⊢
  cases hs : signFlag e.a
  · exact (runTracks_done_iff (e := finishRun e) rfl he).2 ⟨by simp [← h, correctedA, hs], rfl⟩
  · exact (runTracks_done_iff (e := restoreAndFinish e) rfl he).2 ⟨by simp [← h, correctedA, hs], rfl⟩

end Rules

/-- In a run, once the pending record (if any) is accepted, the host holds every record up to `CNT`. -/
theorem collectedRecords_advance {s : State} {d : Word s.cfg.n} (hs : SafeEngine s.eng)
    (ht : RunTracks s.eng s.host.records d) (hr : s.ports.rst = false)
    (hp : s.eng.phase = .iter ∨ s.eng.phase = .corr) (ha : s.eng.pend = false ∨ s.ports.stepReady = true) :
    collectedRecords s = stepsUpTo d s.eng.m s.eng.cnt.toNat := by
  obtain ⟨hiter, hrecords, -⟩ := (runTracks_run_iff hp).1 ht
  cases hd : s.eng.pend
  · rw [collectedRecords_kept hr (.inr hp) (.inl hd), hrecords, hd, Bool.toNat_false, Nat.sub_zero]
  · have hy : s.ports.stepReady = true := ha.resolve_left (by simp [hd])
    obtain ⟨k, hk⟩ : ∃ k, s.eng.cnt.toNat = k + 1 := Nat.exists_eq_add_one.2 (hs.1.pendingInRun hd).1
    rw [collectedRecords_accepted hr hp hd hy, hrecords, hd, presentedRecord_eq_recordAt hiter, hk,
      stepsUpTo_succ, Bool.toNat_true, Nat.add_sub_cancel]

/-- An edge of a run keeps it the run of `nr_divide` on the same dividend, whatever the host's pacing. -/
theorem runTracks_edge_of_run {s : State} {d : Word s.cfg.n} (hs : SafeEngine s.eng)
    (ht : RunTracks s.eng s.host.records d) (hr : s.ports.rst = false)
    (hp : s.eng.phase = .iter ∨ s.eng.phase = .corr) : RunTracks (edgeEngine s) (collectedRecords s) d := by
  obtain ⟨hiter, -, -⟩ := (runTracks_run_iff hp).1 ht
  obtain ⟨hrst, -⟩ | ⟨-, ⟨hrest, -⟩ | ⟨-, ⟨-, hy, he⟩ | ⟨ha, hdue⟩⟩⟩ := edgeEngine_cases s
  · simp [hr] at hrst
  · rcases hp with hp | hp <;> simp [hp] at hrest
  · rwa [he, collectedRecords_kept hr (.inr hp) (.inr hy)]
  · rw [collectedRecords_advance hs ht hr hp ha]
    rcases hdue with ⟨hp, he⟩ | ⟨hp, he⟩ <;> rw [he]
    · exact runTracks_iterate hp (hs.1.iterBelowN hp) hiter
    · exact runTracks_correction (hs.1.corrAtN hp) (hs.runErr (by simp [hp])).1 hiter

/-- Every edge leaves the registers and the records in step with a run of `nr_divide` (R155): on the dividend at the
port after a DIV, on the same dividend otherwise; after a reset any dividend would do. -/
theorem runTracks_edge {s : State} {d : Word s.cfg.n} (hs : SafeEngine s.eng)
    (ht : RunTracks s.eng s.host.records d) : ∃ d', RunTracks (edgeEngine s) (collectedRecords s) d' := by
  obtain ⟨hr, he⟩ | ⟨hr, ⟨hp, ⟨hstart, he⟩ | ⟨hstart, he⟩⟩ | ⟨hp, -⟩⟩ := edgeEngine_cases s
  · rw [he, collectedRecords_reset hr]
    exact ⟨d, (runTracks_idle_iff rfl).2 rfl⟩
  · rw [he, collectedRecords_div hp hstart]
    exact ⟨s.ports.dividend, runTracks_startRun _ _⟩
  · rw [he, collectedRecords_kept hr (.inl hstart) (.inl (hs.1.restHasNoRecord hp))]
    exact ⟨d, ht⟩
  · exact ⟨d, runTracks_edge_of_run hs ht hr hp⟩

/-- Settles O30: an edge keeps R35's invariants, and the agreement with `nr_divide`. -/
theorem stepKeepsRunAgreement : Obligations.StepKeepsRunAgreement := by
  rintro s t ⟨hs, d, ht⟩ hstep
  obtain ⟨l, g, hst, hg⟩ := step_state (step_next hstep).1
  obtain rfl := Host.Outcome.next.inj (hst.symm.trans hstep)
  obtain ⟨d', ht'⟩ := runTracks_edge hs ht
  exact ⟨safeEngine_edgeEngine hs, d', hg ▸ ht'⟩

end Sys2Proof.Machine

/-! PROOF. The invariants of R35 along whole runs from reset, and that no edge changes the configuration (R34). -/

namespace Sys2Proof.Machine

/-- Settles O27: the registers after an edge are `edgeEngine`, which keeps the invariants phase by phase. -/
theorem stepKeepsEngineInvariants : Obligations.StepKeepsEngineInvariants := by
  intro s t hs hstep
  obtain ⟨-, rfl⟩ := step_next hstep
  exact safeEngine_edgeEngine hs

/-- Settles O11: nothing an edge consists of writes the configuration. -/
theorem noStepChangesConfiguration : Obligations.NoStepChangesConfiguration := by
  intro s t hstep
  obtain ⟨-, rfl⟩ := step_next hstep
  rfl

/-- What every edge keeps, any number of edges keeps. -/
theorem stepN_keeps {P : State → Prop} (hkeep : ∀ s t, P s → step s = .next t → P t) {k : Nat} {s t : State}
    (hs : P s) (hrun : stepN k s = .next t) : P t := by
  induction k generalizing s with
  | zero => exact Host.Outcome.next.inj hrun ▸ hs
  | succ k ih =>
    rw [stepN] at hrun
    cases hstep : step s <;> rw [hstep] at hrun
    case next u => exact ih (hkeep s u hs hstep) hrun
    case fault | refused => cases hrun

/-- Settles O29: the inductive form of R35 holds at reset and along every run, and has the nine clauses. -/
theorem reachableStatesMeetInvariants : Obligations.ReachableStatesMeetInvariants := by
  intro k cfg l h t hrun
  exact (stepN_keeps (P := fun s => SafeEngine s.eng) stepKeepsEngineInvariants (safeEngine_reset cfg) hrun).1

/-- Settles O28: the reset registers meet the invariants. -/
theorem resetMeetsEngineInvariants : Obligations.ResetMeetsEngineInvariants :=
  ⟨safeEngine_reset, safeEngine_reset Config.reference⟩

theorem machineInv_resetOf (cfg : Config) : MachineInv (State.resetOf cfg) :=
  ⟨safeEngine_reset cfg, 0#cfg.n, (runTracks_idle_iff rfl).2 rfl⟩

/-- Settles O31: in IDLE the agreement asks only that the host holds no record. -/
theorem resetMeetsRunAgreement : Obligations.ResetMeetsRunAgreement :=
  ⟨machineInv_resetOf, machineInv_resetOf Config.reference⟩

end Sys2Proof.Machine

/-! PROOF. Which micro-operations write which register (spec/10_state.md R21 to R30). -/

namespace Sys2Proof.Machine

/-- What a micro-operation makes of the registers, by its family: DIV and RESET write them all, an iteration iterates,
CORR.ADD restores A and ends the run, CORR.NONE ends it, and HOLD and STALL keep everything. -/
theorem exec_family {i : Instr} {s t : State} (h : exec i s = .next t) :
    ∃ e : Engine s.cfg, t = { s with eng := e } ∧
      (writesAll i = true ∨
        (isIteration i = true ∧ ∃ op, e = iterate op s.eng) ∨
        (isCorrection i = true ∧ isRestoring i = true ∧ e = restoreAndFinish s.eng) ∨
        (isCorrection i = true ∧ e = finishRun s.eng) ∨
        e = s.eng) := by
  rw [exec_eq] at h
  obtain rfl := Host.Outcome.next.inj h
  refine ⟨_, rfl, ?_⟩
  cases i with
  | reset | div => exact .inl rfl
  | stepSub => exact .inr (.inl ⟨rfl, false, rfl⟩)
  | stepAdd => exact .inr (.inl ⟨rfl, true, rfl⟩)
  | corrAdd => exact .inr (.inr (.inl ⟨rfl, rfl, rfl⟩))
  | corrNone => exact .inr (.inr (.inr (.inl ⟨rfl, rfl⟩)))
  | hold | stall => exact .inr (.inr (.inr (.inr rfl)))

/-- Settles O25: an iteration keeps M, CORR.ADD keeps M and Q, CORR.NONE keeps all three. -/
theorem algorithmicRegisterWriters : Obligations.AlgorithmicRegisterWriters := by
  intro i s t h
  obtain ⟨e, rfl, hfamily⟩ := exec_family h
  refine ⟨e, rfl, ?_⟩
  obtain hwrites | ⟨hiter, op, rfl⟩ | ⟨-, hrestore, rfl⟩ | ⟨-, rfl⟩ | rfl := hfamily
  · simp [hwrites]
  · simp [hiter]
  · simp [hrestore]
  · simp
  · simp

/-- Settles O26: an iteration keeps ERR, a correction keeps ERR, CNT, C and OP. -/
theorem sequencingRegisterWriters : Obligations.SequencingRegisterWriters := by
  intro i s t h
  obtain ⟨e, rfl, hfamily⟩ := exec_family h
  refine ⟨e, rfl, ?_⟩
  obtain hwrites | ⟨hiter, op, rfl⟩ | ⟨hcorr, -, rfl⟩ | ⟨hcorr, rfl⟩ | rfl := hfamily
  · simp [hwrites]
  · simp [hiter]
  · simp [hcorr]
  · simp [hcorr]
  · simp

end Sys2Proof.Machine

/-! PROOF. The output ports and STATUS as views of the registers (spec/10_state.md R33, R39). -/

namespace Sys2Proof.Machine

section Views
variable {cfg : Config} (e : Engine cfg)

theorem outputs_done_iff : (outputs e).done = true ↔ e.phase = .done := by
  rw [outputs_done]
  cases e.phase <;> decide

theorem outputs_resultValid_iff : (outputs e).resultValid = true ↔ e.phase = .done ∧ e.err ≠ 0b10#2 := by
  rw [← outputs_done_iff e]
  simp [outputs, ErrCode.code]

end Views

/-- Settles O44: nine ports are registers, `busy` a bit of PHASE, and the other two are read off PHASE and ERR. -/
theorem outputPortEquations : Obligations.OutputPortEquations := fun _ e =>
  ⟨rfl, outputs_done_iff e, outputs_resultValid_iff e, rfl, rfl, rfl, rfl, rfl, rfl, rfl, rfl, rfl⟩

/-- The layout of STATUS (R33): two bits above four flags, and where each is read back. -/
theorem statusLayout_fields (err : BitVec 2) (valid rvalid done busy : Bool) :
    let status : BitVec 6 :=
      err ++ BitVec.ofBool valid ++ BitVec.ofBool rvalid ++ BitVec.ofBool done ++ BitVec.ofBool busy
    status.getLsbD 0 = busy ∧ status.getLsbD 1 = done ∧ status.getLsbD 2 = rvalid ∧ status.getLsbD 3 = valid ∧
      status.extractLsb' 4 2 = err := by
  revert err valid rvalid done busy
  decide

theorem statusView_reset (cfg : Config) : statusView (Engine.reset cfg) = 0b000000#6 := by
  simp [statusView, outputs, Phase.code]

/-- Settles O45: each field of STATUS is the output port of its name, or ERR. -/
theorem statusFields : Obligations.StatusFields := by
  intro cfg e
  obtain ⟨hbusy, hdone, hrvalid, hvalid, herr⟩ := statusLayout_fields e.err (outputs e).stepValid
    (outputs e).resultValid (outputs e).done (outputs e).busy
  exact ⟨hbusy, hdone ▸ outputs_done_iff e, hrvalid ▸ outputs_resultValid_iff e, hvalid, herr, statusView_reset cfg⟩

/-- Settles O32: the registers are R36's by definition, and STATUS reads them. -/
theorem resetValues : Obligations.ResetValues := fun cfg => ⟨rfl, statusView_reset cfg⟩

end Sys2Proof.Machine

/-! PROOF. How many records the host holds at each point of a run, and their indices (spec/20_memory.md R57). -/

namespace Sys2Proof.Machine

theorem stepsUpTo_index {n : Nat} (d m : Word n) (k : Nat) :
    (stepsUpTo d m k).map StepRecord.index = List.range' 1 k := by
  rw [stepsUpTo, List.map_map, List.range'_eq_map_range]
  exact List.map_congr_left fun i _ => Nat.add_comm i 1

section Count
variable {cfg : Config} {e : Engine cfg} {records : List (StepRecord cfg.n)} {d : Word cfg.n}

/-- Before DONE a record is missing: in ITER the counter is below N, and in CORR the last record is still on the port,
since N is at least 1. -/
theorem cnt_sub_pend_lt (hi : EngineInv e) (hp : e.phase = .iter ∨ e.phase = .corr)
    (hnone : e.pend = false → e.cnt.toNat = 0) : e.cnt.toNat - e.pend.toNat < cfg.n := by
  have hn := cfg.n_pos
  rcases hp with hp | hp
  · exact Nat.lt_of_le_of_lt (Nat.sub_le _ _) (hi.iterBelowN hp)
  · have hcnt := hi.corrAtN hp
    cases hd : e.pend
    · have hzero := hnone hd
      omega
    · rw [Bool.toNat_true]
      omega

/-- The host holds the first `k` records of the loop, and `k` is N in DONE alone, unless the DIV was refused. -/
theorem runTracks_records (hi : EngineInv e) (ht : RunTracks e records d) :
    ∃ k ≤ cfg.n, records = stepsUpTo d e.m k ∧
      (e.phase ≠ .idle → e.err ≠ 0b10#2 → (e.phase = .done ↔ k = cfg.n)) := by
  rcases Phase.rest_or_run e.phase with (hp | hp) | hp
  · exact ⟨0, Nat.zero_le _, (runTracks_idle_iff hp).1 ht, fun h => absurd hp h⟩
  · by_cases he : e.err = 0b10#2
    · exact ⟨0, Nat.zero_le _, (runTracks_rejected_iff hp he).1 ht, fun _ h => absurd he h⟩
    · exact ⟨cfg.n, Nat.le_refl _, ((runTracks_done_iff hp he).1 ht).2, fun _ _ => iff_of_true hp rfl⟩
  · obtain ⟨-, hrecords, hnone⟩ := (runTracks_run_iff hp).1 ht
    have hlt := cnt_sub_pend_lt hi hp hnone
    have hnotDone : e.phase ≠ .done := by rcases hp with hp | hp <;> simp [hp]
    exact ⟨_, hlt.le, hrecords, fun _ _ => iff_of_false hnotDone hlt.ne⟩

end Count

/-- Settles O35: the records are the loop's first `k`, whose indices are 1 to `k`, and `k` reaches N only in DONE. -/
theorem recordsComeInOrder : Obligations.RecordsComeInOrder := by
  intro s d hi ht
  obtain ⟨k, hk, hrecords, hdone⟩ := runTracks_records hi ht
  rw [hrecords, stepsUpTo_length]
  exact ⟨stepsUpTo_index d s.eng.m k, hk, hdone⟩

end Sys2Proof.Machine

/-! PROOF. The decode word U, its decoder and its encoder (spec/30_encoding.md R71 to R78). -/

namespace Sys2Proof.Machine

section PackedWord
variable (rst : Bool) (p : Phase) (start adv sel : Bool)

/-- The five fields of a packed word, each read back from its place (R71). -/
theorem packWord_fields :
    (packWord rst p start adv sel).getLsbD 5 = rst ∧
    (packWord rst p start adv sel).extractLsb' 3 2 = p.code ∧
    (packWord rst p start adv sel).getLsbD 2 = start ∧
    (packWord rst p start adv sel).getLsbD 1 = adv ∧
    (packWord rst p start adv sel).getLsbD 0 = sel := by
  revert rst start adv sel
  cases p <;> decide

/-- Whatever a packed word decodes to fits its row and has that word: RESET keeps every field, at rest `start` names
the row, and in a run `adv` does, with `sel` where `adv = 1` (R74). -/
theorem decode_packWord_inv :
    (decode (packWord rst p start adv sel)).wf = true ∧
      encode (decode (packWord rst p start adv sel)) = packWord rst p start adv sel := by
  rw [decode_pack]
  cases rst with
  | true => exact ⟨rfl, rfl⟩
  | false =>
    cases p with
    | idle | done => cases start <;> exact ⟨rfl, rfl⟩
    | iter | corr => cases adv <;> cases sel <;> exact ⟨rfl, rfl⟩

end PackedWord

/-- Every word is packed from its own five fields (R71, R77). -/
theorem packWord_of_fields (u : BitVec 6) :
    packWord (u.getLsbD 5) (wordPhase u) (u.getLsbD 2) (u.getLsbD 1) (u.getLsbD 0) = u := by
  revert u
  decide

theorem wf_decode (u : BitVec 6) : (decode u).wf = true := by
  rw [← packWord_of_fields u]
  exact (decode_packWord_inv ..).1

theorem encode_decode (u : BitVec 6) : encode (decode u) = u := by
  rw [← packWord_of_fields u]
  exact (decode_packWord_inv ..).2

theorem decode_encode {i : Instr} (hw : i.wf = true) : decode (encode i) = i := by
  cases i with
  | reset | stepSub | stepAdd | corrNone | corrAdd => exact decode_pack ..
  | hold p | div p =>
    cases p with
    | idle | done => exact decode_pack ..
    | iter | corr => cases hw
  | stall p =>
    cases p with
    | iter | corr => exact decode_pack ..
    | idle | done => cases hw

/-- Settles O1: the decoder undoes the encoder arm by arm, and every word is packed from fields the decoder keeps. -/
theorem decodeEncodeRoundTrip : Obligations.DecodeEncodeRoundTrip :=
  ⟨fun _ hw => decode_encode hw, fun u => ⟨wf_decode u, encode_decode u⟩⟩

/-- R75 for the word of a micro-operation: it matches its own row and no other. -/
theorem matchesOwnRow : ∀ i : Instr, Laws.MatchesOwnRow.Statement i
  | .reset phase start adv sel => Laws.MatchesOwnRow.reset phase start adv sel
  | .hold phase adv sel => Laws.MatchesOwnRow.hold phase adv sel
  | .div phase adv sel => Laws.MatchesOwnRow.div phase adv sel
  | .stall phase start sel => Laws.MatchesOwnRow.stall phase start sel
  | .stepSub start => Laws.MatchesOwnRow.stepSub start
  | .stepAdd start => Laws.MatchesOwnRow.stepAdd start
  | .corrNone start => Laws.MatchesOwnRow.corrNone start
  | .corrAdd start => Laws.MatchesOwnRow.corrAdd start

/-- Settles O2: a word is the word of the micro-operation it decodes to, and that word matches one row. -/
theorem everyWordMatchesOneRow : Obligations.EveryWordMatchesOneRow := by
  refine ⟨rfl, fun u => ?_⟩
  have hrow := matchesOwnRow (decode u) (wf_decode u)
  rwa [encode_decode] at hrow

/-- A micro-operation's word, taken as the table's number, decodes to it. -/
theorem decodeTableWord_encode (nbits : Nat) {i : Instr} (hw : i.wf = true) :
    decodeTableWord nbits (encode i).toNat = some i := by
  rw [decodeTableWord, decodeWord, if_pos (encode i).isLt, BitVec.ofNat_toNat, BitVec.setWidth_eq, decode_encode hw]

/-- Settles O3: each number is the word of a well-formed micro-operation of its row. -/
theorem tabulatedWordsDecode : Obligations.TabulatedWordsDecode :=
  ⟨decodeTableWord_encode 8 (i := .reset .corr false true true) rfl,
    decodeTableWord_encode 8 (i := .hold .done true true) rfl,
    decodeTableWord_encode 8 (i := .div .done true true) rfl,
    decodeTableWord_encode 8 (i := .stall .corr true true) rfl,
    decodeTableWord_encode 8 (i := .stepSub true) rfl, decodeTableWord_encode 8 (i := .stepAdd true) rfl,
    decodeTableWord_encode 8 (i := .corrNone true) rfl, decodeTableWord_encode 8 (i := .corrAdd true) rfl⟩

theorem advanceBit_iff {cfg : Config} (e : Engine cfg) (ready : Bool) :
    advanceBit e ready = true ↔ e.pend = false ∨ ready = true := by
  simp [advanceBit]

/-- Settles O4: U is packed from the five fields, and each is read back from its place. -/
theorem decodeWordFields : Obligations.DecodeWordFields := by
  refine ⟨fun s => ?_, rfl, rfl, rfl, rfl⟩
  obtain ⟨hrst, hphase, hstart, hadv, hsel⟩ := packWord_fields s.ports.rst s.eng.phase s.ports.start
    (advanceBit s.eng s.ports.stepReady) (selectBit s.eng)
  exact ⟨hrst, hphase, hstart, (congrArg (· = true) hadv).to_iff.trans (advanceBit_iff ..), hsel⟩

end Sys2Proof.Machine

/-! PROOF. What `sel` reads (spec/30_encoding.md R72), and that a placed decode word is the next one. -/

namespace Sys2Proof.Machine

section SelectBit
variable {cfg : Config} {e : Engine cfg}

theorem selectBit_iter (hp : e.phase = .iter) : selectBit e = signFlag (shiftedA e.a e.q) := by
  rw [selectBit, hp]

theorem selectBit_corr (hp : e.phase = .corr) : selectBit e = signFlag e.a := by
  rw [selectBit, hp]

theorem selectBit_rest (hp : e.phase = .idle ∨ e.phase = .done) : selectBit e = false := by
  rcases hp with hp | hp <;> rw [selectBit, hp]

theorem selectBit_iter_wide (hp : e.phase = .iter) (hn : 2 ≤ cfg.n) : selectBit e = e.a.getLsbD (cfg.n - 2) :=
  (selectBit_iter hp).trans (signFlag_shiftedA hn ..)

theorem selectBit_iter_one (hp : e.phase = .iter) (hn : cfg.n = 1) : selectBit e = e.q.getLsbD 0 := by
  have hsign : ∀ {n : Nat} (a q : Word n), n = 1 → signFlag (shiftedA a q) = q.getLsbD 0 := by
    rintro n a q rfl
    exact signFlag_shiftedA_one a q
  exact (selectBit_iter hp).trans (hsign e.a e.q hn)

end SelectBit

/-- Settles O5: ITER reads the sign of the shifted A, which is `A[N-2]`, or `Q[0]` for one bit; CORR reads A's. -/
theorem selectBitReadsTheSign : Obligations.SelectBitReadsTheSign := fun _ _ =>
  ⟨selectBit_iter, selectBit_iter_wide, selectBit_iter_one, selectBit_corr, selectBit_rest⟩

/-- Flipping one bit of a word flips what is read there. -/
theorem getLsbD_xor_twoPow {n i : Nat} (hi : i < n) (w : Word n) :
    (w ^^^ BitVec.twoPow n i).getLsbD i = !w.getLsbD i := by
  simp [hi]

section PlaceSelect
variable {cfg : Config} (e : Engine cfg) (sel : Bool)

/-- `placeSelect` writes A or Q at most. -/
theorem placeSelect_frame : ∃ a q, placeSelect e sel = { e with a := a, q := q } := by
  unfold placeSelect
  repeat' split
  all_goals exact ⟨_, _, rfl⟩

@[simp] theorem placeSelect_phase : (placeSelect e sel).phase = e.phase := by
  obtain ⟨a, q, h⟩ := placeSelect_frame e sel
  rw [h]

@[simp] theorem placeSelect_pend : (placeSelect e sel).pend = e.pend := by
  obtain ⟨a, q, h⟩ := placeSelect_frame e sel
  rw [h]

@[simp] theorem placeSelect_err : (placeSelect e sel).err = e.err := by
  obtain ⟨a, q, h⟩ := placeSelect_frame e sel
  rw [h]

/-- Where `sel` reads a register, the flipped bit is the one it reads. -/
theorem selectBit_placeSelect_of_ne (hp : e.phase = .iter ∨ e.phase = .corr) (hne : selectBit e ≠ sel) :
    selectBit (placeSelect e sel) = !selectBit e := by
  have hn := cfg.n_pos
  rcases hp with hp | hp
  · by_cases hone : cfg.n = 1
    · have hplace : placeSelect e sel = { e with q := e.q ^^^ BitVec.twoPow cfg.n 0 } := by
        simp only [placeSelect, if_neg hne, hp, if_pos hone]
      rw [hplace, selectBit_iter_one hp hone, selectBit_iter_one (by exact hp) hone]
      exact getLsbD_xor_twoPow (by omega) e.q
    · have hplace : placeSelect e sel = { e with a := e.a ^^^ BitVec.twoPow cfg.n (cfg.n - 2) } := by
        simp only [placeSelect, if_neg hne, hp, if_neg hone]
      rw [hplace, selectBit_iter_wide hp (by omega), selectBit_iter_wide (by exact hp) (by omega)]
      exact getLsbD_xor_twoPow (by omega) e.a
  · have hplace : placeSelect e sel = { e with a := e.a ^^^ BitVec.twoPow cfg.n (cfg.n - 1) } := by
      simp only [placeSelect, if_neg hne, hp]
    rw [hplace, selectBit_corr hp, selectBit_corr (by exact hp)]
    exact getLsbD_xor_twoPow (by omega) e.a

/-- `sel` takes the value asked for, unless a 1 is asked for at rest (R72). -/
theorem selectBit_placeSelect (hrest : e.phase.atRest = true → sel = false) :
    selectBit (placeSelect e sel) = sel := by
  by_cases heq : selectBit e = sel
  · rw [placeSelect, if_pos heq, heq]
  · rcases Phase.rest_or_run e.phase with hp | hp
    · have hsel : sel = false := hrest (by rcases hp with hp | hp <;> rw [hp] <;> rfl)
      exact absurd ((selectBit_rest hp).trans hsel.symm) heq
    · rw [selectBit_placeSelect_of_ne e sel hp heq]
      exact Bool.not_eq.2 heq

end PlaceSelect

section PlaceWord
variable (s : State) (u : BitVec 6)

/-- `adv = 1` is placed as `step_ready = 1`, and `adv = 0` as a pending record that is not accepted. -/
theorem advanceBit_placeWord :
    advanceBit (placeWord s u).eng (placeWord s u).ports.stepReady = u.getLsbD 1 := by
  simp only [advanceBit, placeWord, placeSelect_pend]
  cases u.getLsbD 1
  · rfl
  · exact Bool.or_true _

theorem decodeWordOf_placeWord (hrest : (wordPhase u).atRest = true → u.getLsbD 0 = false) :
    decodeWordOf (placeWord s u) = u := by
  have hphase : (placeWord s u).eng.phase = wordPhase u := placeSelect_phase ..
  have hsel : selectBit (placeWord s u).eng = u.getLsbD 0 := selectBit_placeSelect _ _ hrest
  rw [decodeWordOf, hphase, advanceBit_placeWord, hsel]
  exact packWord_of_fields u

/-- A reserved ERR is cleared, unless `rst` overrides it (R76, R78). -/
theorem edgeFault_placeWord : edgeFault (placeWord s u) = none := by
  rw [edgeFault_none_iff]
  simp only [placeWord, placeSelect_err]
  cases u.getLsbD 5
  · right
    cases hcode : ErrCode.ofCode s.eng.err with
    | none => simp [ErrCode.code]
    | some c =>
      change s.eng.err ≠ 0b11#2
      exact mt (errCode_ofCode_none_iff _).2 (hcode ▸ Option.some_ne_none c)
  · exact .inl rfl

end PlaceWord

/-- Settles O6: the fields of U are placed one by one, and no bit of A or Q is read at rest. -/
theorem placedWordIsTheNextWord : Obligations.PlacedWordIsTheNextWord := by
  intro s nbits w hw hrest
  refine ⟨decodeWordOf_placeWord s _ fun hp => ?_, edgeFault_placeWord ..⟩
  rw [BitVec.getLsbD_ofNat, Nat.testBit_zero, hrest hp]
  rfl

end Sys2Proof.Machine

/-! PROOF. The input word I of a stimulus line (spec/30_encoding.md R82). -/

namespace Sys2Proof.Machine

section InputWord
variable {n : Nat} (l : Line n)

/-- Two N-bit operands side by side fit in 2N bits. -/
theorem Line.operands_lt (d v : Word n) : d.toNat * 2 ^ n + v.toNat < 2 ^ (2 * n) := by
  calc d.toNat * 2 ^ n + v.toNat
    _ < (d.toNat + 1) * 2 ^ n := by rw [Nat.succ_mul]; exact Nat.add_lt_add_left v.isLt _
    _ ≤ 2 ^ n * 2 ^ n := Nat.mul_le_mul_right _ d.isLt
    _ = 2 ^ (2 * n) := by rw [Nat.two_mul, Nat.pow_add]

/-- The three control bits stand above the operands. -/
theorem Line.inputWord_value :
    l.rst.toNat * 2 ^ (2 * n + 2) + l.start.toNat * 2 ^ (2 * n + 1) + l.stepReady.toNat * 2 ^ (2 * n)
        + l.dividend.toNat * 2 ^ n + l.divisor.toNat
      = 2 ^ (2 * n) * (l.rst.toNat * 4 + l.start.toNat * 2 + l.stepReady.toNat)
        + (l.dividend.toNat * 2 ^ n + l.divisor.toNat) := by
  ring

/-- No bit of a line is lost in its 2N+3 bits. -/
theorem Line.encode_toNat :
    l.encode.toNat = l.rst.toNat * 2 ^ (2 * n + 2) + l.start.toNat * 2 ^ (2 * n + 1)
      + l.stepReady.toNat * 2 ^ (2 * n) + l.dividend.toNat * 2 ^ n + l.divisor.toNat := by
  rw [Line.encode, BitVec.toNat_ofNat]
  refine Nat.mod_eq_of_lt ?_
  have hlow := Line.operands_lt l.dividend l.divisor
  have hrst := l.rst.toNat_le
  have hstart := l.start.toNat_le
  have hready := l.stepReady.toNat_le
  rw [Line.inputWord_value]
  calc 2 ^ (2 * n) * (l.rst.toNat * 4 + l.start.toNat * 2 + l.stepReady.toNat)
          + (l.dividend.toNat * 2 ^ n + l.divisor.toNat)
    _ < 2 ^ (2 * n) * (l.rst.toNat * 4 + l.start.toNat * 2 + l.stepReady.toNat + 1) := by
      rw [Nat.mul_succ]; exact Nat.add_lt_add_left hlow _
    _ ≤ 2 ^ (2 * n) * 2 ^ 3 := Nat.mul_le_mul_left _ (by omega)
    _ = 2 ^ (2 * n + 3) := (Nat.pow_add ..).symm

/-- Bit `2N + k` of the word is bit `k` of `{rst, start, step_ready}`. -/
theorem Line.encode_getLsbD_high (k : Nat) :
    l.encode.getLsbD (2 * n + k) =
      (l.rst.toNat * 4 + l.start.toNat * 2 + l.stepReady.toNat).testBit k := by
  rw [BitVec.getLsbD, Line.encode_toNat, Line.inputWord_value,
    Nat.testBit_two_pow_mul_add _ (Line.operands_lt l.dividend l.divisor), if_neg (by omega), Nat.add_sub_cancel_left]

theorem testBit_three_bits (b₂ b₁ b₀ : Bool) :
    (b₂.toNat * 4 + b₁.toNat * 2 + b₀.toNat).testBit 2 = b₂ ∧
    (b₂.toNat * 4 + b₁.toNat * 2 + b₀.toNat).testBit 1 = b₁ ∧
    (b₂.toNat * 4 + b₁.toNat * 2 + b₀.toNat).testBit 0 = b₀ := by
  revert b₂ b₁ b₀
  decide

theorem Line.encode_control :
    l.encode.getLsbD (2 * n + 2) = l.rst ∧ l.encode.getLsbD (2 * n + 1) = l.start ∧
      l.encode.getLsbD (2 * n) = l.stepReady := by
  obtain ⟨hrst, hstart, hready⟩ := testBit_three_bits l.rst l.start l.stepReady
  exact ⟨(Line.encode_getLsbD_high l 2).trans hrst, (Line.encode_getLsbD_high l 1).trans hstart,
    (Line.encode_getLsbD_high l 0).trans hready⟩

/-- The dividend stands above the divisor. -/
theorem Line.encode_operands :
    l.encode.extractLsb' n n = l.dividend ∧ l.encode.extractLsb' 0 n = l.divisor := by
  have hvalue : l.encode.toNat =
      2 ^ n * (2 ^ n * (l.rst.toNat * 4 + l.start.toNat * 2 + l.stepReady.toNat) + l.dividend.toNat)
        + l.divisor.toNat := by
    rw [Line.encode_toNat]; ring
  constructor <;> apply BitVec.eq_of_toNat_eq
  · rw [BitVec.extractLsb'_toNat, hvalue, Nat.shiftRight_eq_div_pow, Nat.mul_add_div (Nat.two_pow_pos n),
      Nat.div_eq_of_lt l.divisor.isLt, Nat.add_zero, Nat.mul_add_mod, Nat.mod_eq_of_lt l.dividend.isLt]
  · rw [BitVec.extractLsb'_toNat, hvalue, Nat.shiftRight_zero, Nat.mul_add_mod, Nat.mod_eq_of_lt l.divisor.isLt]

theorem Line.decode_encode : Line.decode l.encode = l := by
  obtain ⟨hrst, hstart, hready⟩ := Line.encode_control l
  obtain ⟨hdividend, hdivisor⟩ := Line.encode_operands l
  rw [Line.decode, hrst, hstart, hready, hdividend, hdivisor]

/-- The line keeps every bit of the word. -/
theorem Line.decode_injective : Function.Injective (Line.decode (n := n)) := by
  intro w w' h
  obtain ⟨hrst, hstart, hready, hdividend, hdivisor⟩ := Line.mk.inj h
  refine BitVec.eq_of_getLsbD_eq fun i hi => ?_
  by_cases hlow : i < n
  · simpa [BitVec.getLsbD_extractLsb', hlow] using congrArg (·.getLsbD i) hdivisor
  by_cases hmid : i < 2 * n
  · have hbit := congrArg (·.getLsbD (i - n)) hdividend
    simp only [BitVec.getLsbD_extractLsb', show i - n < n by omega, show n + (i - n) = i by omega] at hbit
    simpa using hbit
  · obtain rfl | rfl | rfl : i = 2 * n ∨ i = 2 * n + 1 ∨ i = 2 * n + 2 := by omega
    exacts [hready, hstart, hrst]

theorem Line.encode_decode (w : BitVec (2 * n + 3)) : (Line.decode (n := n) w).encode = w :=
  Line.decode_injective (Line.decode_encode _)

end InputWord

/-- Settles O7: the line is read back field by field, and reading a word loses no bit of it. -/
theorem inputWordRoundTrip : Obligations.InputWordRoundTrip :=
  ⟨fun _ l => ⟨Line.decode_encode l, Line.encode_toNat l⟩, fun _ => Line.encode_decode, by decide⟩

end Sys2Proof.Machine

/-! PROOF. The text of a value (spec/43_host_interface.md R172, R176) and of a stimulus line (spec/30_encoding.md
R82). -/

namespace Sys2Proof.Machine

section BinaryText
variable {n : Nat} (w : Word n)

theorem binaryText_length : (binaryText w).length = n := by
  rw [binaryText, List.length_map, List.length_range]

theorem isBinaryDigit_of_mem_binaryText {ch : Char} (h : ch ∈ binaryText w) : isBinaryDigit ch = true := by
  obtain ⟨k, -, rfl⟩ := List.mem_map.1 h
  split <;> rfl

theorem validOperandText_binaryText (hn : 1 ≤ n) : validOperandText (binaryText w) = true := by
  have hne : binaryText w ≠ [] := List.ne_nil_of_length_pos (by rw [binaryText_length]; exact hn)
  rw [validOperandText, Bool.and_eq_true, List.all_eq_true]
  exact ⟨by simpa using hne, fun _ => isBinaryDigit_of_mem_binaryText w⟩

theorem binaryValue_append_digit (t : List Char) (b : Bool) :
    binaryValue (t ++ [if b then '1' else '0']) = 2 * binaryValue t + b.toNat := by
  rw [binaryValue, List.foldl_append]
  cases b <;> rfl

/-- The first `k` digits are the value without its low `n - k` bits. -/
theorem binaryValue_leading_digits {k : Nat} (hk : k ≤ n) :
    binaryValue ((List.range k).map fun i => if w.getLsbD (n - 1 - i) then '1' else '0') = w.toNat >>> (n - k) := by
  induction k with
  | zero => exact (Nat.shiftRight_eq_zero _ _ w.isLt).symm
  | succ k ih =>
    have hdrop : n - k = n - (k + 1) + 1 := by omega
    have hbit : w.getLsbD (n - 1 - k) = (w.toNat >>> (n - (k + 1))).testBit 0 := by
      rw [Nat.testBit_shiftRight, BitVec.getLsbD]
      congr 1
      omega
    rw [List.range_succ, List.map_append, List.map_singleton, binaryValue_append_digit, ih (by omega), hbit, hdrop,
      Nat.shiftRight_add, ← Nat.bit_val, Nat.bit_testBit_zero_shiftRight_one]

theorem binaryValue_binaryText : binaryValue (binaryText w) = w.toNat := by
  rw [binaryText, binaryValue_leading_digits w le_rfl, Nat.sub_self, Nat.shiftRight_zero]

theorem readBits_binaryText (hn : 1 ≤ n) : readBits n (binaryText w) = some w := by
  rw [readBits, if_pos ⟨binaryText_length w, validOperandText_binaryText w hn⟩, operandOfText,
    binaryValue_binaryText, maskN, BitVec.ofNat_toNat, BitVec.setWidth_eq]

theorem space_notMem_binaryText : ' ' ∉ binaryText w := fun h =>
  absurd (isBinaryDigit_of_mem_binaryText w h) (by decide)

end BinaryText

section Spaces

theorem joinSpaces_eq_intercalate (ps : List (List Char)) : joinSpaces ps = [' '].intercalate ps := by
  induction ps with
  | nil => rfl
  | cons p ps ih =>
    cases ps with
    | nil => simp [joinSpaces]
    | cons q rest => rw [joinSpaces, ih, List.intercalate_cons_cons, List.append_assoc]; rfl

theorem splitSpaces_eq_splitOn (t : List Char) : splitSpaces t = t.splitOn ' ' := by
  induction t with
  | nil => rfl
  | cons ch rest ih =>
    rw [splitSpaces, ih, List.splitOn_cons_eq_if_modifyHead]
    by_cases hch : ch = ' '
    · simp [hch]
    · cases hsplit : rest.splitOn ' ' with
      | nil => exact absurd hsplit (List.splitOn_ne_nil ' ' rest)
      | cons piece pieces => simp [hch]

/-- Pieces without a space, joined by spaces, are cut apart again. -/
theorem splitSpaces_joinSpaces {ps : List (List Char)} (hps : ps ≠ []) (hspace : ∀ p ∈ ps, ' ' ∉ p) :
    splitSpaces (joinSpaces ps) = ps := by
  rw [splitSpaces_eq_splitOn, joinSpaces_eq_intercalate, List.splitOn_intercalate ' ' hspace hps]

end Spaces

section Tokens
variable {n : Nat}

theorem Token.text_ne_nil (t : Token n) : t.text ≠ [] := by
  cases t <;> exact List.cons_ne_nil _ _

theorem Token.space_notMem_text (t : Token n) : ' ' ∉ t.text := by
  cases t with
  | rst | start | ready | dash => simp [Token.text]
  | dividend b | divisor b => simp [Token.text, space_notMem_binaryText]

theorem Token.read_text (hn : 1 ≤ n) (t : Token n) : Token.read n t.text = some t := by
  cases t with
  | rst | start | ready | dash => rfl
  | dividend b | divisor b => simp [Token.text, Token.read, readBits_binaryText b hn]

theorem Token.mapM_read_map_text (hn : 1 ≤ n) (ts : List (Token n)) :
    (ts.map Token.text).mapM (Token.read n) = some ts := by
  have hread : Token.read n ∘ Token.text = pure := funext (Token.read_text hn)
  rw [List.mapM_map, hread, List.mapM_pure, List.map_id']
  rfl

/-- Reading a line of tokens is reading its tokens (R82). -/
theorem Line.read_joinSpaces (hn : 1 ≤ n) {ts : List (Token n)} (hts : ts ≠ []) :
    Line.read n (joinSpaces (ts.map Token.text)) = Line.ofTokens ts := by
  have hspace : ∀ p ∈ ts.map Token.text, ' ' ∉ p := List.forall_mem_map.2 fun t _ => Token.space_notMem_text t
  have hkept : (ts.map Token.text).filter (fun piece => !piece.isEmpty) = ts.map Token.text :=
    List.filter_eq_self.2 (List.forall_mem_map.2 fun t _ => by simp [Token.text_ne_nil t])
  rw [Line.read, splitSpaces_joinSpaces (mt List.map_eq_nil_iff.1 hts) hspace, hkept, Token.mapM_read_map_text hn]

end Tokens

section LineTokens
variable {n : Nat} (l : Line n)

/-- The tokens of the inputs that are not 0 (R82). -/
def Line.inputTokens {n : Nat} (l : Line n) : List (Token n) :=
  (if l.rst then [.rst] else []) ++ (if l.start then [.start] else [])
    ++ (if l.dividend = 0#n then [] else [.dividend l.dividend])
    ++ (if l.divisor = 0#n then [] else [.divisor l.divisor])
    ++ (if l.stepReady then [.ready] else [])

theorem Line.tokens_eq : l.tokens = if l.inputTokens = [] then [.dash] else l.inputTokens := rfl

/-- Each token stands at most once, in R82's order. -/
theorem Line.inputTokens_sublist :
    l.inputTokens.Sublist [.rst, .start, .dividend l.dividend, .divisor l.divisor, .ready] := by
  change List.Sublist _
    (([.rst] : List (Token n)) ++ [.start] ++ [.dividend l.dividend] ++ [.divisor l.divisor] ++ [.ready])
  refine (((List.Sublist.append ?_ ?_).append ?_).append ?_).append ?_ <;> split <;> simp

theorem Line.dash_notMem_inputTokens : Token.dash ∉ l.inputTokens := fun h => by
  simpa using (Line.inputTokens_sublist l).mem h

theorem Line.inputTokens_kind_nodup : (l.inputTokens.map Token.kind).Nodup :=
  List.Nodup.sublist ((Line.inputTokens_sublist l).map Token.kind) (by simp [Token.kind])

/-- The tokens set exactly the inputs of the line: an input without a token is 0, its value in the line of zeros. -/
theorem Line.foldl_inputTokens : l.inputTokens.foldl Line.addToken (Line.idle n) = l := by
  have hrst : (if l.rst then [.rst] else []).foldl Line.addToken (Line.idle n)
      = ⟨l.rst, false, false, 0#n, 0#n⟩ := by cases l.rst <;> rfl
  have hstart : (if l.start then [.start] else []).foldl Line.addToken ⟨l.rst, false, false, 0#n, 0#n⟩
      = ⟨l.rst, l.start, false, 0#n, 0#n⟩ := by cases l.start <;> rfl
  have hdividend : (if l.dividend = 0#n then [] else [.dividend l.dividend]).foldl Line.addToken
      ⟨l.rst, l.start, false, 0#n, 0#n⟩ = ⟨l.rst, l.start, false, l.dividend, 0#n⟩ := by
    split
    case isTrue h => rw [h]; rfl
    case isFalse => rfl
  have hdivisor : (if l.divisor = 0#n then [] else [.divisor l.divisor]).foldl Line.addToken
      ⟨l.rst, l.start, false, l.dividend, 0#n⟩ = ⟨l.rst, l.start, false, l.dividend, l.divisor⟩ := by
    split
    case isTrue h => rw [h]; rfl
    case isFalse => rfl
  rw [Line.inputTokens, List.foldl_append, List.foldl_append, List.foldl_append, List.foldl_append, hrst, hstart,
    hdividend, hdivisor]
  obtain ⟨rst, start, ready, d, v⟩ := l
  cases ready <;> rfl

theorem Line.tokens_ne_nil : l.tokens ≠ [] := by
  rw [Line.tokens_eq]
  split
  case isTrue => exact List.cons_ne_nil _ _
  case isFalse h => exact h

/-- The tokens of a line give the line; `-` is the line of zeros, whose inputs need no token. -/
theorem Line.ofTokens_tokens : Line.ofTokens l.tokens = some l := by
  rw [Line.tokens_eq]
  split
  case isTrue h =>
    have hidle : Line.idle n = l := by simpa [h] using Line.foldl_inputTokens l
    rw [← hidle]
    simp [Line.ofTokens, Line.addToken]
  case isFalse h =>
    rw [Line.ofTokens, if_neg h, if_neg fun hdash => Line.dash_notMem_inputTokens l hdash.2,
      if_pos (Line.inputTokens_kind_nodup l), Line.foldl_inputTokens]

end LineTokens

/-- Settles O8: the text is the line's tokens between spaces, each token reads back, and the tokens give the line. -/
theorem lineTextRoundTrip : Obligations.LineTextRoundTrip := fun _ l hn =>
  (Line.read_joinSpaces hn (Line.tokens_ne_nil l)).trans (Line.ofTokens_tokens l)

end Sys2Proof.Machine

/-! PROOF. What stops an edge (spec/30_encoding.md R78), and what an edge consists of (R70). -/

namespace Sys2Proof.Machine

/-- Settles O10: an edge that is not stopped has the one next state of `step_eq`, and the one stop is `step_fault`. -/
theorem onlyReservedErrStops : Obligations.OnlyReservedErrStops := by
  intro s
  refine ⟨fun h => ⟨_, step_eq h⟩, step_fault, fun r hr => ?_⟩
  by_cases h : s.ports.rst = true ∨ s.eng.err ≠ 0b11#2
  · rw [step_eq h] at hr
    cases hr
  · obtain ⟨hrst, herr⟩ := not_or.1 h
    rw [step_fault (Bool.not_eq_true _ ▸ hrst) (not_not.1 herr)] at hr
    cases hr

/-- Settles O9: with no fault `step` is `exec` between the host's acts, and each act is a record update. -/
theorem stepRunsDecodedInstruction : Obligations.StepRunsDecodedInstruction := by
  refine ⟨fun s t hrun hexec => ?_, fun s => ⟨_, rfl⟩, fun b s => ⟨_, rfl⟩, fun s => ⟨_, _, _, rfl⟩⟩
  rw [step, (edgeFault_none_iff s).2 hrun, hexec]

end Sys2Proof.Machine

/-! PROOF. The command family: which edges are HOLD and DIV (spec/30_encoding.md R74), and what HOLD and the three cases
of DIV do (spec/40_command.md R100 to R105). -/

namespace Sys2Proof.Machine

section Selection
variable {s : State}

/-- At rest `start` alone tells DIV from HOLD. -/
theorem decode_decodeWordOf_rest (hr : s.ports.rst = false) (hp : s.eng.phase = .idle ∨ s.eng.phase = .done) :
    decode (decodeWordOf s) =
      if s.ports.start then .div s.eng.phase (advanceBit s.eng s.ports.stepReady) false
      else .hold s.eng.phase (advanceBit s.eng s.ports.stepReady) false := by
  rw [decodeWordOf, selectBit_rest hp, decode_pack, hr]
  rcases hp with hp | hp <;> rw [hp] <;> rfl

theorem decode_decodeWordOf_hold (hr : s.ports.rst = false) (hp : s.eng.phase = .idle ∨ s.eng.phase = .done)
    (hs : s.ports.start = false) :
    decode (decodeWordOf s) = .hold s.eng.phase (advanceBit s.eng s.ports.stepReady) false := by
  rw [decode_decodeWordOf_rest hr hp, hs]
  rfl

theorem decode_decodeWordOf_div (hr : s.ports.rst = false) (hp : s.eng.phase = .idle ∨ s.eng.phase = .done)
    (hs : s.ports.start = true) :
    decode (decodeWordOf s) = .div s.eng.phase (advanceBit s.eng s.ports.stepReady) false := by
  rw [decode_decodeWordOf_rest hr hp, if_pos hs]

/-- In a run an edge is a reset, a stall, or the micro-operation that is due; never a DIV (R235). -/
theorem decode_decodeWordOf_run_ne_div (hp : s.eng.phase = .iter ∨ s.eng.phase = .corr) (p : Phase) (ad se : Bool) :
    decode (decodeWordOf s) ≠ .div p ad se := by
  rw [decodeWordOf, decode_pack]
  rcases hp with hp | hp
  all_goals
    simp only [hp]
    split_ifs <;> nofun

end Selection

/-! What the two micro-operations of the family answer. -/

theorem exec_hold (s : State) (p : Phase) (ad se : Bool) : exec (.hold p ad se) s = .next s := exec_eq ..

theorem exec_div (s : State) (p : Phase) (ad se : Bool) :
    exec (.div p ad se) s = .next { s with eng := startRun s.cfg s.ports.dividend s.ports.divisor } := exec_eq ..

section StartRun
variable {cfg : Config} (d : Word cfg.n) {v : Word cfg.n}

theorem startRun_nonzero (hv : v ≠ 0#cfg.n) : startRun cfg d v = loadRun cfg d v .none := if_neg hv

theorem startRun_zero_proceed (hpolicy : cfg.div0Policy = .proceed) :
    startRun cfg d 0#cfg.n = loadRun cfg d 0#cfg.n .div0Proceed := by
  rw [startRun, if_pos rfl, hpolicy]

theorem startRun_zero_reject (hpolicy : cfg.div0Policy = .reject) :
    startRun cfg d 0#cfg.n = rejectRun cfg := by
  rw [startRun, if_pos rfl, hpolicy]

end StartRun

/-- Settles O14: at rest without `start` the decoder answers HOLD, whose arm of `exec` is the identity. -/
theorem holdChangesNothing : Obligations.HoldChangesNothing :=
  ⟨fun _ hr hp hs => ⟨_, _, decode_decodeWordOf_hold hr hp hs⟩, exec_hold⟩

/-- Settles O15: `start` selects DIV at rest, no edge of a run decodes to it, and a non-zero divisor
loads a run with ERR 00. -/
theorem divNonzeroStartsRun : Obligations.DivNonzeroStartsRun := by
  refine ⟨fun s hr hp hs => ⟨_, _, decode_decodeWordOf_div hr hp hs⟩,
    fun s hp => decode_decodeWordOf_run_ne_div hp, fun s p ad se hv => ?_⟩
  rw [exec_div, startRun_nonzero _ hv]
  rfl

/-- Settles O16: a zero divisor under PROCEED loads a run with ERR 01. -/
theorem divZeroProceeds : Obligations.DivZeroProceeds := by
  intro s p ad se hv hpolicy
  rw [exec_div, hv, startRun_zero_proceed _ hpolicy]
  rfl

/-- Settles O17: a zero divisor under REJECT leaves the registers of `rejectRun`, which are at rest in DONE, so the next
`start` is a DIV. -/
theorem divZeroRejects : Obligations.DivZeroRejects := by
  intro s p ad se hv hpolicy
  refine ⟨rejectRun s.cfg, ?_, rfl, (outputs_done_iff _).2 rfl, rfl, rfl, fun l h hr hs => ?_⟩
  · rw [exec_div, hv, startRun_zero_reject _ hpolicy]
  · exact ⟨_, _, decode_decodeWordOf_div (s := ⟨s.cfg, rejectRun s.cfg, l, h⟩) hr (.inr rfl) hs⟩

end Sys2Proof.Machine

/-! PROOF. The iteration family: which edges of a run are STALL, STEP.SUB and STEP.ADD (spec/30_encoding.md R74), what
the three do (spec/41_iteration.md R121 to R123), and the handover of the pending record (R124). -/

namespace Sys2Proof.Machine

section Selection
variable {s : State}

/-- In a run without `rst`, an edge that does not advance is a stall, whatever `start` and `sel` are. -/
theorem decode_decodeWordOf_stall (hr : s.ports.rst = false) (hp : s.eng.phase = .iter ∨ s.eng.phase = .corr)
    (hd : s.eng.pend = true) (hy : s.ports.stepReady = false) :
    decode (decodeWordOf s) = .stall s.eng.phase s.ports.start (selectBit s.eng) := by
  have hadv : advanceBit s.eng s.ports.stepReady = false := by rw [advanceBit, hd, hy]; rfl
  rw [decodeWordOf, decode_pack, hr, hadv]
  rcases hp with hp | hp <;> rw [hp] <;> rfl

/-- In ITER an edge that advances is the iteration that the sign of the shifted A chooses. -/
theorem decode_decodeWordOf_iter (hr : s.ports.rst = false) (hp : s.eng.phase = .iter)
    (ha : s.eng.pend = false ∨ s.ports.stepReady = true) :
    decode (decodeWordOf s) =
      if signFlag (shiftedA s.eng.a s.eng.q) then .stepAdd s.ports.start else .stepSub s.ports.start := by
  rw [decodeWordOf, decode_pack, hr, (advanceBit_iff ..).2 ha, selectBit_iter hp, hp]
  rfl

/-- An edge's micro-operation fixes the fields of U that its row does. -/
theorem decodeWordOf_fields_of_encode {rst start adv sel : Bool} {p : Phase}
    (h : encode (decode (decodeWordOf s)) = packWord rst p start adv sel) :
    s.ports.rst = rst ∧ advanceBit s.eng s.ports.stepReady = adv ∧ selectBit s.eng = sel := by
  rw [encode_decode, decodeWordOf] at h
  obtain ⟨hrst, -, -, hadv, hsel⟩ := packWord_fields s.ports.rst s.eng.phase s.ports.start
    (advanceBit s.eng s.ports.stepReady) (selectBit s.eng)
  obtain ⟨hrst', -, -, hadv', hsel'⟩ := packWord_fields rst p start adv sel
  rw [h] at hrst hadv hsel
  exact ⟨hrst.symm.trans hrst', hadv.symm.trans hadv', hsel.symm.trans hsel'⟩

/-- A record pending at the edge of a micro-operation whose row has `rst = 0` and `adv = 1` is accepted there (R124). -/
theorem acceptsRecord_of_encode {start sel : Bool} {p : Phase}
    (h : encode (decode (decodeWordOf s)) = packWord false p start true sel) (hd : s.eng.pend = true) :
    acceptsRecord s = true := by
  obtain ⟨hr, hadv, -⟩ := decodeWordOf_fields_of_encode h
  have hy : s.ports.stepReady = true := ((advanceBit_iff ..).1 hadv).resolve_left (by simp [hd])
  simp [acceptsRecord, hr, hd, hy]

end Selection

/-! What the three micro-operations of the family answer. -/

theorem exec_stall (s : State) (p : Phase) (st se : Bool) : exec (.stall p st se) s = .next s := exec_eq ..

theorem exec_stepSub (s : State) (st : Bool) :
    exec (.stepSub st) s = .next { s with eng := iterate false s.eng } := exec_eq ..

theorem exec_stepAdd (s : State) (st : Bool) :
    exec (.stepAdd st) s = .next { s with eng := iterate true s.eng } := exec_eq ..

/-! The datapath of one iteration in exact arithmetic (R120). -/

/-- The sign of the shifted A, as R121 and R122 compare it. -/
theorem signFlag_shiftedA_iff {n : Nat} (hn : 1 ≤ n) (a q : Word n) :
    signFlag (shiftedA a q) = true ↔ 2 ^ (n - 1) ≤ (2 * a.toNat + (q.getLsbD (n - 1)).toNat) % 2 ^ n := by
  rw [signFlag_iff hn, shiftedA_toNat, carryBit]

/-- A non-negative value is one below half the range. -/
theorem not_signFlag_toNat {n : Nat} (hn : 1 ≤ n) (v : Word n) :
    (!signFlag v).toNat = if v.toNat < 2 ^ (n - 1) then 1 else 0 := by
  have hsign := signFlag_iff hn v
  cases hs : signFlag v
  · rw [hs] at hsign
    rw [if_pos (by simpa using hsign)]; rfl
  · rw [if_neg (Nat.not_lt.2 (hsign.1 hs))]; rfl

section Iterate
variable {cfg : Config} (e : Engine cfg)

theorem iterate_false_a_toNat : (iterate false e).a.toNat =
    ((2 * e.a.toNat + (e.q.getLsbD (cfg.n - 1)).toNat) % 2 ^ cfg.n + 2 ^ cfg.n - e.m.toNat) % 2 ^ cfg.n := by
  rw [iterate_a, iterWith_a, addOrSub, if_neg Bool.false_ne_true, maskN_toNat, shiftedA_toNat, carryBit]

theorem iterate_true_a_toNat : (iterate true e).a.toNat =
    ((2 * e.a.toNat + (e.q.getLsbD (cfg.n - 1)).toNat) % 2 ^ cfg.n + e.m.toNat) % 2 ^ cfg.n := by
  rw [iterate_a, iterWith_a, addOrSub, if_pos rfl, maskN_toNat, shiftedA_toNat, carryBit]

theorem iterate_q_toNat (op : Bool) : (iterate op e).q.toNat =
    (2 * e.q.toNat) % 2 ^ cfg.n + if (iterate op e).a.toNat < 2 ^ (cfg.n - 1) then 1 else 0 := by
  rw [iterate_q, iterWith_q, nextQ_toNat cfg.n_pos, not_signFlag_toNat cfg.n_pos, iterate_a]

end Iterate

/-- Settles O18: a shifted A below half the range selects it, A = 0 cannot select the addition since `sel` is then a bit
of A, and the registers are those of `iterate` along the subtraction. -/
theorem stepSubIterates : Obligations.StepSubIterates := by
  refine ⟨fun s hr hp ha hlt => ?_, fun s hp hn hzero st h => ?_, fun s st h => ?_, fun s st => ?_⟩
  · rw [decode_decodeWordOf_iter hr hp ha, if_neg]
    rw [signFlag_shiftedA_iff s.cfg.n_pos]
    exact Nat.not_le.2 hlt
  · obtain ⟨-, -, hsel⟩ := decodeWordOf_fields_of_encode (congrArg encode h)
    simp [selectBit_iter_wide hp hn, hzero] at hsel
  · exact acceptsRecord_of_encode (congrArg encode h)
  · exact ⟨_, exec_stepSub s st, iterate_false_a_toNat _, iterate_q_toNat _ _, rfl, rfl, rfl, rfl, rfl, rfl, rfl⟩

/-- Settles O19: a shifted A of at least half the range selects it, and the registers are those of `iterate` along the
addition. -/
theorem stepAddIterates : Obligations.StepAddIterates := by
  refine ⟨fun s hr hp ha hle => ?_, fun s st h => ?_, fun s st => ?_⟩
  · rw [decode_decodeWordOf_iter hr hp ha, if_pos ((signFlag_shiftedA_iff s.cfg.n_pos ..).2 hle)]
  · exact acceptsRecord_of_encode (congrArg encode h)
  · exact ⟨_, exec_stepAdd s st, iterate_true_a_toNat _, iterate_q_toNat _ _, rfl, rfl, rfl, rfl, rfl, rfl, rfl⟩

/-- Settles O20: in a run a pending record without `step_ready` leaves `adv = 0`, and STALL's arm of `exec` is the
identity. -/
theorem stallChangesNothing : Obligations.StallChangesNothing :=
  ⟨fun _ hr hp hd hy => ⟨_, decode_decodeWordOf_stall hr hp hd hy⟩, exec_stall⟩

/-- Settles O36: without `step_ready` the edge is a stall, which delivers nothing; with it the host gets the record on
the ports while the engine iterates or, in CORR, ends the run. -/
theorem recordHeldUntilAccepted : Obligations.RecordHeldUntilAccepted := by
  intro s hr herr hp hd
  obtain ⟨l, g, hstep, hg⟩ := step_state (.inr herr)
  refine ⟨fun hy => ⟨l, g, ?_, ?_⟩, fun hy => ⟨_, l, g, hstep, ?_, fun hcorr => ?_, fun hiter => ?_⟩⟩
  · rw [hstep, edgeEngine_stall hr hp hd hy]
  · rw [hg, collectedRecords_kept hr (.inr hp) (.inr hy)]
  · rw [hg, collectedRecords_accepted hr hp hd hy, presentedRecord_eq]
  · rw [edgeEngine_corr hr hcorr (.inr hy)]
    split <;> rfl
  · rw [edgeEngine_iter hr hiter (.inr hy), iterate_cnt]

end Sys2Proof.Machine

/-! PROOF. The laws of the iterations of a run (spec/41_iteration.md R126 to R131): what the carry bit, Q, the operation
and A are after `i` of them. -/

namespace Sys2Proof.Machine

section Loop
variable {n : Nat} (d m : Word n) (i : Nat)

theorem iterAt_succ_a : (iterAt d m (i + 1)).a =
    addOrSub (iterAt d m (i + 1)).op (shiftedA (iterAt d m i).a (iterAt d m i).q) m := rfl

theorem iterAt_succ_q : (iterAt d m (i + 1)).q = nextQ (iterAt d m i).q (iterAt d m (i + 1)).a := rfl

theorem iterAt_succ_c : (iterAt d m (i + 1)).c = carryBit (iterAt d m i).q := rfl

theorem iterAt_succ_op : (iterAt d m (i + 1)).op = signFlag (shiftedA (iterAt d m i).a (iterAt d m i).q) := rfl

end Loop

/-! Q: the dividend's unused bits above the quotient bits produced (R127), and the carry bit, which is the first of the
unused ones (R126). -/

section Quotient
variable {n : Nat} (d m : Word n)

/-- The number that the quotient bits `q_1 … q_i` of R127 spell, the first the most significant. -/
def quotientBits {n : Nat} (d m : Word n) (i : Nat) : Nat :=
  ((List.range i).map fun j => (!(iterAt d m (j + 1)).a.getLsbD (n - 1)).toNat * 2 ^ (i - (j + 1))).sum

theorem quotientBits_zero : quotientBits d m 0 = 0 := rfl

/-- One more iteration appends one more quotient bit. -/
theorem quotientBits_succ (i : Nat) :
    quotientBits d m (i + 1) = 2 * quotientBits d m i + (!signFlag (iterAt d m (i + 1)).a).toNat := by
  have hshift : ∀ j ∈ List.range i,
      (!(iterAt d m (j + 1)).a.getLsbD (n - 1)).toNat * 2 ^ (i + 1 - (j + 1)) =
        2 * ((!(iterAt d m (j + 1)).a.getLsbD (n - 1)).toNat * 2 ^ (i - (j + 1))) := by
    intro j hj
    have hexp : i + 1 - (j + 1) = i - (j + 1) + 1 := by have := List.mem_range.1 hj; omega
    rw [hexp, pow_succ]; ring
  rw [quotientBits, quotientBits, List.range_succ, List.map_append, List.sum_append, List.map_congr_left hshift,
    List.sum_map_mul_left]
  simp [signFlag]

theorem quotientBits_lt (i : Nat) : quotientBits d m i < 2 ^ i := by
  induction i with
  | zero => exact Nat.one_pos
  | succ i ih =>
    have hbit := Bool.toNat_lt (!signFlag (iterAt d m (i + 1)).a)
    rw [quotientBits_succ, pow_succ]
    omega

/-- Shifting the unused bits `x` left above `low` drops the highest of them and keeps the others. -/
theorem shift_unused_bits {x low i n : Nat} (hi : i + 1 ≤ n) (hlow : low < 2 ^ i) :
    2 * (2 ^ i * (x % 2 ^ (n - i)) + low) % 2 ^ n = 2 ^ (i + 1) * (x % 2 ^ (n - (i + 1))) + 2 * low := by
  have hwidth : 2 ^ n = 2 ^ (i + 1) * 2 ^ (n - (i + 1)) := by rw [← pow_add, Nat.add_sub_cancel' hi]
  have hlow' : 2 * low < 2 ^ (i + 1) := by rw [pow_succ]; omega
  have hdouble : 2 * (2 ^ i * (x % 2 ^ (n - i)) + low) = 2 ^ (i + 1) * (x % 2 ^ (n - i)) + 2 * low := by ring
  have hkept : x % 2 ^ (n - i) % 2 ^ (n - (i + 1)) = x % 2 ^ (n - (i + 1)) :=
    Nat.mod_mod_of_dvd _ (pow_dvd_pow 2 (by omega))
  rw [hdouble, hwidth, Nat.mod_mul, Nat.mul_add_mod, Nat.mod_eq_of_lt hlow', Nat.mul_add_div (Nat.two_pow_pos _),
    Nat.div_eq_of_lt hlow', Nat.add_zero (x % _), hkept, Nat.add_comm]

/-- R127: the low `n - i` bits of the dividend stand above `i` quotient bits. -/
theorem iterAt_q_toNat {i : Nat} (hi : i ≤ n) :
    (iterAt d m i).q.toNat = 2 ^ i * (d.toNat % 2 ^ (n - i)) + quotientBits d m i := by
  induction i with
  | zero => simp [quotientBits_zero, Nat.mod_eq_of_lt d.isLt]
  | succ i ih =>
    rw [iterAt_succ_q, nextQ_toNat (by omega), ih (by omega), shift_unused_bits hi (quotientBits_lt d m i),
      quotientBits_succ, Nat.add_assoc]

/-- R126: the next bit to leave Q is the highest unused bit of the dividend. -/
theorem carryBit_iterAt {i : Nat} (hi : i < n) : carryBit (iterAt d m i).q = d.getLsbD (n - (i + 1)) := by
  have hplace : n - 1 - i = n - (i + 1) := by omega
  rw [carryBit, BitVec.getLsbD, iterAt_q_toNat d m hi.le, Nat.testBit_two_pow_mul_add _ (quotientBits_lt d m i),
    if_neg (by omega), Nat.testBit_mod_two_pow, hplace, decide_eq_true (by omega), Bool.true_and, BitVec.getLsbD]

end Quotient

/-- Settles O46: the carry bit of iteration `i` is the bit that leaves Q after `i - 1` of them. -/
theorem carryLaw : Obligations.CarryLaw := by
  intro n d m i hpos hle
  obtain ⟨k, rfl⟩ := Nat.exists_eq_add_one.2 hpos
  rw [iterAt_succ_c, carryBit_iterAt d m hle]

/-- Settles O47: the unused dividend bits, shifted up by `i`, are `D * 2^i` modulo `2^N`, none left at `i = N`. -/
theorem quotientRegisterLaw : Obligations.QuotientRegisterLaw := by
  intro n d m _
  have hlaw : ∀ i, i ≤ n → (iterAt d m i).q.toNat = (d.toNat * 2 ^ i) % 2 ^ n + quotientBits d m i := by
    intro i hi
    have hwidth : 2 ^ n = 2 ^ i * 2 ^ (n - i) := by rw [← pow_add, Nat.add_sub_cancel' hi]
    rw [iterAt_q_toNat d m hi, hwidth, Nat.mul_comm d.toNat, Nat.mul_mod_mul_left]
  refine ⟨hlaw, ?_⟩
  rw [hlaw n (Nat.le_refl n), Nat.mul_mod_left, Nat.zero_add, quotientBits]

/-- Settles O48: the operation is the sign of the shifted A, which for `N ≥ 2` is bit `N-2` of A and for `N = 1` the
carry bit. -/
theorem operationSelectionLaw : Obligations.OperationSelectionLaw := by
  refine ⟨fun n d m i hn hpos _ => ?_, fun n d m hn => ?_, fun d m => ?_⟩
  · obtain ⟨k, rfl⟩ := Nat.exists_eq_add_one.2 hpos
    rw [iterAt_succ_op, signFlag_shiftedA hn, Nat.add_sub_cancel]
  · rw [iterAt_succ_op, signFlag_shiftedA hn, iterAt_zero, BitVec.getLsbD_zero]
  · rw [iterAt_succ_op, signFlag_shiftedA_one, iterAt_zero]

section ZeroDivisor
variable {n : Nat} (d : Word n)

/-- Adding or subtracting a zero divisor leaves the shifted A (R130). -/
theorem iterAt_zero_divisor_succ_a (i : Nat) :
    (iterAt d 0#n (i + 1)).a = shiftedA (iterAt d 0#n i).a (iterAt d 0#n i).q := by
  rw [iterAt_succ_a]
  cases (iterAt d 0#n (i + 1)).op
  · rw [addOrSub_false, BitVec.sub_zero]
  · rw [addOrSub_true, BitVec.add_zero]

/-- R130: with a zero divisor A takes in the dividend from the top, bit by bit. -/
theorem iterAt_zero_divisor_a {i : Nat} (hi : i ≤ n) : (iterAt d 0#n i).a.toNat = d.toNat / 2 ^ (n - i) := by
  induction i with
  | zero => simp [Nat.div_eq_of_lt d.isLt]
  | succ i ih =>
    have hprev : d.toNat / 2 ^ (n - i) = d.toNat / 2 ^ (n - (i + 1)) / 2 := by
      rw [Nat.div_div_eq_div_mul, ← pow_succ]; congr 2; omega
    have hfits : d.toNat / 2 ^ (n - (i + 1)) < 2 ^ n := Nat.lt_of_le_of_lt (Nat.div_le_self ..) d.isLt
    rw [iterAt_zero_divisor_succ_a, shiftedA_toNat, ih (by omega), carryBit_iterAt _ _ hi, BitVec.getLsbD,
      Nat.toNat_testBit, hprev, Nat.div_add_mod, Nat.mod_eq_of_lt hfits]

/-- The sign of A is then a bit of the dividend, or lies beyond it. -/
theorem iterAt_zero_divisor_sign {i : Nat} (hi : i ≤ n) :
    (iterAt d 0#n i).a.getLsbD (n - 1) = d.getLsbD (n - i + (n - 1)) := by
  rw [BitVec.getLsbD, iterAt_zero_divisor_a d hi, Nat.testBit_div_two_pow, BitVec.getLsbD, Nat.add_comm]

end ZeroDivisor

/-- Settles O49: A is the shifted A, so its value and signs are the dividend's and its sign is the one that chose the
operation. -/
theorem zeroDivisorIterations : Obligations.ZeroDivisorIterations := by
  intro n d i hpos hle
  refine ⟨iterAt_zero_divisor_a d hle, fun hlt => ?_, fun hlast => ?_, ?_⟩
  · rw [iterAt_zero_divisor_sign d hle, BitVec.getLsbD_of_ge _ _ (by omega)]
  · rw [iterAt_zero_divisor_sign d hle, hlast, Nat.sub_self, Nat.zero_add]
  · obtain ⟨k, rfl⟩ := Nat.exists_eq_add_one.2 hpos
    rw [iterAt_succ_op, ← iterAt_zero_divisor_succ_a, signFlag]

/-! The accumulator as a signed number (R131). -/

section Signed
variable {n : Nat}

theorem signFlag_iff_toInt_neg (v : Word n) : signFlag v = true ↔ v.toInt < 0 := by
  rw [signFlag_eq_msb, BitVec.msb_eq_toInt, decide_eq_true_iff]

/-- The shift on signed values, before the result is known to fit (R120). -/
theorem shiftedA_eq_ofInt (a q : Word n) :
    shiftedA a q = BitVec.ofInt n (2 * a.toInt + (carryBit q).toNat) := by
  simp [shiftedA, maskN, BitVec.ofInt_add, BitVec.ofInt_mul, BitVec.ofNat_add, BitVec.ofNat_mul]

/-- Adding or subtracting M on signed values, before the result is known to fit (R120). -/
theorem addOrSub_eq_ofInt (op : Bool) (as m : Word n) :
    addOrSub op as m = BitVec.ofInt n (as.toInt + if op then (m.toNat : Int) else -(m.toNat : Int)) := by
  cases op
  · simp [addOrSub_false, BitVec.ofInt_add, BitVec.ofInt_neg, BitVec.sub_eq_add_neg]
  · simp [addOrSub_true, BitVec.ofInt_add]

/-- Twice a divisor of R131's domain fits the signed range. -/
theorem two_mul_divisor_le {m : Word n} (hn : 2 ≤ n) (hm : m.toNat ≤ 2 ^ (n - 2)) :
    2 * (m.toNat : Int) ≤ 2 ^ (n - 1) := by
  have hhalf : 2 ^ (n - 1) = 2 * 2 ^ (n - 2) := by rw [← pow_succ']; congr 1; omega
  exact_mod_cast hhalf ▸ Nat.mul_le_mul_left 2 hm

/-- The operation that the sign of the shifted A chooses leads back from `[-2M, 2M)` into `[-M, M)` without a wrap. -/
theorem addOrSub_sign_toInt {as m : Word n} (hn : 2 ≤ n) (hm : m.toNat ≤ 2 ^ (n - 2))
    (hlow : -(2 * m.toNat : Int) ≤ as.toInt) (hhigh : as.toInt < 2 * m.toNat) :
    (addOrSub (signFlag as) as m).toInt = as.toInt + (if signFlag as then (m.toNat : Int) else -(m.toNat : Int)) ∧
      -(m.toNat : Int) ≤ (addOrSub (signFlag as) as m).toInt ∧ (addOrSub (signFlag as) as m).toInt < m.toNat := by
  have hhalf := two_mul_divisor_le hn hm
  have hsign := signFlag_iff_toInt_neg as
  rw [addOrSub_eq_ofInt]
  split
  · have hneg := hsign.1 ‹_›
    rw [BitVec.toInt_ofInt_eq_self (by omega) (by omega) (by omega)]
    omega
  · have hnonneg := mt hsign.2 ‹_›
    rw [BitVec.toInt_ofInt_eq_self (by omega) (by omega) (by omega)]
    omega

/-- One iteration of R131: from a signed A in `[-M, M)` neither the shift nor the operation wraps, and the new A lies in
`[-M, M)` again. -/
theorem nrIter_toInt {a q m : Word n} (hn : 2 ≤ n) (hm : m.toNat ≤ 2 ^ (n - 2)) (hlow : -(m.toNat : Int) ≤ a.toInt)
    (hhigh : a.toInt < m.toNat) :
    (nrIter a q m).a.toInt = 2 * a.toInt + (carryBit q).toNat
        + (if (nrIter a q m).op then (m.toNat : Int) else -(m.toNat : Int)) ∧
      -(m.toNat : Int) ≤ (nrIter a q m).a.toInt ∧ (nrIter a q m).a.toInt < m.toNat := by
  have hhalf := two_mul_divisor_le hn hm
  have hcarry := Bool.toNat_lt (carryBit q)
  have hshift : (shiftedA a q).toInt = 2 * a.toInt + (carryBit q).toNat := by
    rw [shiftedA_eq_ofInt, BitVec.toInt_ofInt_eq_self (by omega) (by omega) (by omega)]
  rw [← hshift]
  exact addOrSub_sign_toInt hn hm (by omega) (by omega)

end Signed

/-- Settles O51: A starts at 0, inside `[-M, M)`, and each iteration is exact and stays there. -/
theorem signedRecurrence : Obligations.SignedRecurrence := by
  intro n d m hn hpos hm
  have hrange : ∀ i, -(m.toNat : Int) ≤ (iterAt d m i).a.toInt ∧ (iterAt d m i).a.toInt < (m.toNat : Int) := by
    intro i
    induction i with
    | zero => rw [iterAt_zero, BitVec.toInt_zero]; omega
    | succ i ih => exact (nrIter_toInt hn hm ih.1 ih.2).2
  intro i hi _
  obtain ⟨k, rfl⟩ := Nat.exists_eq_add_one.2 hi
  exact nrIter_toInt hn hm (hrange k).1 (hrange k).2

end Sys2Proof.Machine

/-! PROOF. The functional level in closed form: when `nr_divide` refuses and what it answers otherwise
(spec/42_correction.md R154). -/

namespace Sys2Proof.Machine

section NrDivide
variable {n : Nat} {policy : Div0Policy}

theorem maskN_toNat_of_lt {v : Nat} (h : v < 2 ^ n) : (maskN n v).toNat = v := by
  rw [maskN_toNat, Nat.mod_eq_of_lt h]

@[simp] theorem maskN_toNat_self (w : Word n) : maskN n w.toNat = w :=
  BitVec.eq_of_toNat_eq (maskN_toNat_of_lt w.isLt)

theorem not_refused_iff (m : Word n) : ¬(m = 0#n ∧ policy = .reject) ↔ m ≠ 0#n ∨ policy = .proceed := by
  cases policy <;> simp

/-- With a width, and unless a zero divisor is refused, the answer is the loop's end, corrected. -/
theorem nrDivide_words (d : Word n) {m : Word n} (hn : 1 ≤ n) (h : m ≠ 0#n ∨ policy = .proceed) :
    nrDivide d.toNat m.toNat n policy =
      .result (iterAt d m n).q (correctedA (iterAt d m n).a m) (stepsUpTo d m n) := by
  simp only [nrDivide, maskN_toNat_self]
  rw [if_neg (by omega), if_neg ((not_refused_iff m).2 h)]

theorem nrDivide_rejected_iff (d m : Word n) (hn : 1 ≤ n) :
    nrDivide d.toNat m.toNat n policy = .rejected ↔ m = 0#n ∧ policy = .reject := by
  by_cases h : m = 0#n ∧ policy = .reject
  · refine iff_of_true ?_ h
    simp only [nrDivide, maskN_toNat_self]
    rw [if_neg (by omega), if_pos h]
  · rw [nrDivide_words d hn ((not_refused_iff m).1 h)]
    exact iff_of_false nofun h

end NrDivide

end Sys2Proof.Machine

/-! PROOF. A whole run on the machine (spec/42_correction.md R155, R170): the DIV that begins it, its edges, and the
outcome the host reads. -/

namespace Sys2Proof.Machine

/-- What one edge leaves in the host, without its turn: the collected records, and the outcome read. -/
theorem step_host {s : State} (h : s.ports.rst = true ∨ s.eng.err ≠ 0b11#2) :
    ∃ l g, step s = .next ⟨s.cfg, edgeEngine s, l, g⟩ ∧ g.records = collectedRecords s ∧
      g.outcomes = s.host.outcomes ++ outcomesRead s :=
  ⟨_, _, step_turn h, rfl, rfl⟩

section Start
variable {cfg : Config} {d v : Word cfg.n}

/-- DIV refuses what `nr_divide` refuses. -/
theorem startRun_of_rejected (h : nrDivide d.toNat v.toNat cfg.n cfg.div0Policy = .rejected) :
    startRun cfg d v = rejectRun cfg := by
  obtain ⟨rfl, hpolicy⟩ := (nrDivide_rejected_iff d v cfg.n_pos).1 h
  exact startRun_zero_reject d hpolicy

/-- DIV begins a run on every other pair of operands. -/
theorem startRun_of_not_rejected (h : nrDivide d.toNat v.toNat cfg.n cfg.div0Policy ≠ .rejected) :
    ∃ code, startRun cfg d v = loadRun cfg d v code := by
  obtain ⟨-, he⟩ | ⟨-, -, he⟩ | ⟨hv, hpolicy, -⟩ := startRun_cases cfg d v
  · exact ⟨_, he⟩
  · exact ⟨_, he⟩
  · exact absurd ((nrDivide_rejected_iff d v cfg.n_pos).2 ⟨hv, hpolicy⟩) h

end Start

theorem Phase.ne_rest_of_run {p : Phase} (h : p = .iter ∨ p = .corr) : p ≠ .idle ∧ p ≠ .done := by
  rcases h with rfl | rfl <;> decide

section Run
variable {s : State}

/-- An edge of a run leaves the divisor and ERR, and cannot lead to IDLE. -/
theorem edgeEngine_of_run (hr : s.ports.rst = false) (hp : s.eng.phase = .iter ∨ s.eng.phase = .corr) :
    (edgeEngine s).m = s.eng.m ∧ (edgeEngine s).err = s.eng.err ∧ (edgeEngine s).phase ≠ .idle := by
  have hnotIdle := (Phase.ne_rest_of_run hp).1
  obtain ⟨hrst, -⟩ | ⟨-, ⟨hrest, -⟩ | ⟨-, ⟨-, -, he⟩ | ⟨-, ⟨-, he⟩ | ⟨-, he⟩⟩⟩⟩ := edgeEngine_cases s
  · simp [hr] at hrst
  · rcases hp with hp | hp <;> simp [hp] at hrest
  · rw [he]; exact ⟨rfl, rfl, hnotIdle⟩
  · rw [he]
    refine ⟨rfl, rfl, ?_⟩
    rw [iterate_phase]; split
    · nofun
    · exact hnotIdle
  · rw [he]; split <;> exact ⟨rfl, rfl, nofun⟩

/-- A run that is DONE shows the Result of `nr_divide`, and the host holds its records (R155). -/
theorem nrDivide_of_tracks {cfg : Config} {e : Engine cfg} {records : List (StepRecord cfg.n)} {d : Word cfg.n}
    {policy : Div0Policy} (ht : RunTracks e records d) (hp : e.phase = .done) (he : e.err ≠ 0b10#2)
    (h : e.m ≠ 0#cfg.n ∨ policy = .proceed) :
    nrDivide d.toNat e.m.toNat cfg.n policy = .result e.q e.a records := by
  obtain ⟨hregs, hrecords⟩ := (runTracks_done_iff hp he).1 ht
  obtain ⟨ha, hq, -, -⟩ := IterOut.mk.inj hregs
  rw [nrDivide_words d cfg.n_pos h, ha, hq, hrecords]

/-- A DIV edge leaves `startRun` on the ports' operands, and a host whose records begin anew. -/
theorem step_div (hr : s.ports.rst = false) (hs : s.ports.start = true)
    (hp : s.eng.phase = .idle ∨ s.eng.phase = .done) (herr : s.eng.err ≠ 0b11#2) :
    ∃ l g, step s = .next ⟨s.cfg, startRun s.cfg s.ports.dividend s.ports.divisor, l, g⟩ ∧ g.records = [] ∧
      g.outcomes = s.host.outcomes ++ outcomesRead s := by
  obtain ⟨l, g, hstep, hrecords, hread⟩ := step_host (.inr herr)
  rw [edgeEngine_div hr hp hs] at hstep
  exact ⟨l, g, hstep, hrecords.trans (collectedRecords_div hp hs), hread⟩

/-- The host reads the refusal at the edge of a refused DIV, and nothing where a run begins. -/
theorem outcomesRead_div (hr : s.ports.rst = false) (hs : s.ports.start = true)
    (hp : s.eng.phase = .idle ∨ s.eng.phase = .done) : outcomesRead s =
      if nrDivide s.ports.dividend.toNat s.ports.divisor.toNat s.cfg.n s.cfg.div0Policy = .rejected
      then [.rejected] else [] := by
  have he := edgeEngine_div hr hp hs
  split
  · next h =>
    rw [startRun_of_rejected h] at he
    exact outcomesRead_rejected (runAtEdge_start hs) (by rw [he]; rfl) (by rw [he]; rfl)
  · next h =>
    obtain ⟨code, hload⟩ := startRun_of_not_rejected h
    exact outcomesRead_not_done (by rw [he, hload]; nofun)

/-- At the edge that ends a run the host reads the Result of `nr_divide`, with the records that edge completes. -/
theorem outcomesRead_run {d : Word s.cfg.n} (hsafe : SafeEngine s.eng) (ht : RunTracks s.eng s.host.records d)
    (hp : s.eng.phase = .iter ∨ s.eng.phase = .corr) (hr : s.ports.rst = false)
    (hm : s.eng.m ≠ 0#_ ∨ s.cfg.div0Policy = .proceed) (hdone : (edgeEngine s).phase = .done) :
    ∃ q r, nrDivide d.toNat s.eng.m.toNat s.cfg.n s.cfg.div0Policy = .result q r (collectedRecords s) ∧
      outcomesRead s = [.result q r s.eng.err (collectedRecords s)] := by
  obtain ⟨hm', herr, -⟩ := edgeEngine_of_run hr hp
  have hreject : (edgeEngine s).err ≠ 0b10#2 := herr ▸ (hsafe.runErr (Phase.ne_rest_of_run hp).2).1
  have hresult := nrDivide_of_tracks (runTracks_edge_of_run hsafe ht hr hp) hdone hreject (hm'.symm ▸ hm)
  rw [hm'] at hresult
  exact ⟨_, _, hresult, herr ▸ outcomesRead_result (runAtEdge_run hp) hdone hreject⟩

/-- At a reset edge, and at a HOLD, the host reads nothing. -/
theorem outcomesRead_idle_edge (h : s.ports.rst = true ∨
    (s.eng.err ≠ 0b11#2 ∧ s.ports.start = false ∧ (s.eng.phase = .idle ∨ s.eng.phase = .done))) :
    outcomesRead s = [] := by
  rcases h with hr | ⟨-, hs, hp⟩
  · exact outcomesRead_not_done (by rw [edgeEngine_reset hr]; nofun)
  · exact outcomesRead_hold hp hs

end Run

/-- Settles O33: a DIV leaves `startRun`, which refuses when `nr_divide` does and else tracks its operands; the edges of
a run keep it tracking, so that DONE shows the Result, which is what the host reads at the edge that leads there. -/
theorem runFollowsItsOperands : Obligations.RunFollowsItsOperands := by
  refine ⟨fun s hr hs hp herr => ?_, fun s d hsafe ht hp hr => ?_,
    fun s d policy ht hp he hm => nrDivide_of_tracks ht hp he hm, fun s hr hs hp herr => ?_,
    fun s d hsafe ht hp hr hm => ?_, fun s h => ?_⟩
  · obtain ⟨l, g, hstep, hrecords, -⟩ := step_div hr hs hp herr
    refine ⟨_, l, g, hstep, hrecords, fun h => ?_, fun h => ?_⟩
    · rw [startRun_of_rejected h]; exact ⟨rfl, rfl⟩
    · have htracks := runTracks_startRun s.ports.dividend s.ports.divisor
      obtain ⟨code, hload⟩ := startRun_of_not_rejected h
      exact ⟨by rw [hload]; rfl, by rw [hload]; rfl, safeEngine_startRun .., hrecords ▸ htracks⟩
  · obtain ⟨l, g, hstep, hrecords, -⟩ := step_host (.inr hsafe.1.errNotReserved)
    exact ⟨_, l, g, hstep, safeEngine_edgeEngine hsafe, hrecords ▸ runTracks_edge_of_run hsafe ht hr hp,
      edgeEngine_of_run hr hp⟩
  · obtain ⟨l, g, hstep, -, hread⟩ := step_div hr hs hp herr
    exact ⟨_, l, g, hstep, outcomesRead_div hr hs hp ▸ hread⟩
  · obtain ⟨l, g, hstep, hrecords, hread⟩ := step_host (.inr hsafe.1.errNotReserved)
    refine ⟨_, l, g, hstep, fun hnot => ?_, fun hdone => ?_⟩
    · rw [hread, outcomesRead_not_done hnot, List.append_nil]
    · obtain ⟨q, r, hresult, houtcome⟩ := outcomesRead_run hsafe ht hp hr hm hdone
      exact ⟨q, r, hrecords ▸ hresult, by rw [hread, houtcome, hrecords]⟩
  · obtain ⟨l, g, hstep, -, hread⟩ := step_host (h.imp_right And.left)
    exact ⟨_, l, g, hstep, by rw [hread, outcomesRead_idle_edge h, List.append_nil]⟩

end Sys2Proof.Machine

/-! PROOF. How far a run still has to go (spec/70_reset_and_hazards.md R240), and that a host which is always ready
brings it to DONE (spec/42_correction.md R155, spec/30_encoding.md R83). -/

namespace Sys2Proof.Machine

section Remaining
variable {cfg : Config} {e : Engine cfg}

theorem remaining_iter (hp : e.phase = .iter) : remaining e = cfg.n - e.cnt.toNat + 1 := by simp [remaining, hp]

theorem remaining_corr (hp : e.phase = .corr) : remaining e = 1 := by simp [remaining, hp]

theorem remaining_eq_zero_iff : remaining e = 0 ↔ e.phase = .idle ∨ e.phase = .done := by
  cases hp : e.phase <;> simp [remaining, hp]

/-- An iteration leaves one micro-operation less to do. -/
theorem remaining_iterate (op : Bool) (hp : e.phase = .iter) (hcnt : e.cnt.toNat < cfg.n) :
    remaining (iterate op e) + 1 = remaining e := by
  rw [remaining_iter hp]
  by_cases hlast : e.cnt.toNat + 1 = cfg.n
  · rw [remaining_corr (by simp [hlast])]
    omega
  · rw [remaining_iter (by simp [hlast, hp]), iterate_cnt, cnt_succ_toNat e.cnt hcnt]
    omega

/-- So does every edge of a run that advances. -/
theorem remaining_edgeEngine {s : State} (hi : EngineInv s.eng) (hr : s.ports.rst = false)
    (hp : s.eng.phase = .iter ∨ s.eng.phase = .corr) (ha : s.eng.pend = false ∨ s.ports.stepReady = true) :
    remaining (edgeEngine s) + 1 = remaining s.eng := by
  rcases hp with hp | hp
  · rw [edgeEngine_iter hr hp ha]
    exact remaining_iterate _ hp (hi.iterBelowN hp)
  · rw [edgeEngine_corr hr hp ha, remaining_corr hp, Nat.add_eq_right, remaining_eq_zero_iff]
    split <;> exact .inr rfl

end Remaining

section ReadyPlan
variable {n : Nat}

/-- A plan that keeps `step_ready` at 1 for `k` edges of a run: by lines, or by DRAIN. -/
def ReadyPlan (k : Nat) (plan : List (HostCmd n)) : Prop :=
  ∃ rest, plan = List.replicate k (.line (Line.ready n)) ++ rest ∨ plan = .drain :: rest

/-- The host's turn spends one edge of such a plan. -/
theorem nextTurn_of_readyPlan {cfg : Config} {k : Nat} {plan : List (HostCmd cfg.n)} (busy : Bool)
    (reports : List HostReport) (h : ReadyPlan (k + 1) plan) :
    (nextTurn cfg busy false plan reports).line = Line.ready cfg.n ∧
      ReadyPlan k (nextTurn cfg busy false plan reports).plan := by
  obtain ⟨rest, rfl | rfl⟩ := h
  · exact ⟨rfl, rest, .inl rfl⟩
  · exact ⟨rfl, rest, .inr rfl⟩

end ReadyPlan

/-- An edge that does not end the run leaves a ready line on the ports. -/
theorem step_ready {s : State} {k : Nat} (h : s.ports.rst = true ∨ s.eng.err ≠ 0b11#2)
    (hrun : (edgeEngine s).phase ≠ .done) (hplan : ReadyPlan (k + 1) s.host.plan) :
    ∃ g, step s = .next ⟨s.cfg, edgeEngine s, Line.ready s.cfg.n, g⟩ ∧ g.records = collectedRecords s ∧
      ReadyPlan k g.plan := by
  have hdone : (outputs (edgeEngine s)).done = false := by
    rw [← Bool.not_eq_true, outputs_done_iff]; exact hrun
  obtain ⟨hline, hrest⟩ := nextTurn_of_readyPlan (outputs (edgeEngine s)).busy s.host.reports hplan
  rw [step_turn h, hdone]
  dsimp only
  rw [hline]
  exact ⟨_, rfl, rfl, hrest⟩

/-- A run on the dividend `d` that is due to end in `k + 1` edges, with a host that is ready at all of them. -/
structure ReadyRun (s : State) (d : Word s.cfg.n) (k : Nat) : Prop where
  safe : SafeEngine s.eng
  tracks : RunTracks s.eng s.host.records d
  running : s.eng.phase = .iter ∨ s.eng.phase = .corr
  ports : s.ports = Line.ready s.cfg.n
  plan : ReadyPlan k s.host.plan
  due : remaining s.eng = k + 1

section ReadyRun
variable {s : State} {d : Word s.cfg.n} {k : Nat}

theorem ReadyRun.rst (h : ReadyRun s d k) : s.ports.rst = false := by rw [h.ports]; rfl

theorem ReadyRun.remaining_edge (h : ReadyRun s d k) : remaining (edgeEngine s) = k :=
  Nat.succ.inj ((remaining_edgeEngine h.safe.1 h.rst h.running (.inr (by rw [h.ports]; rfl))).trans h.due)

/-- The last edge of the run leads to DONE. -/
theorem ReadyRun.edge_done (h : ReadyRun s d 0) : (edgeEngine s).phase = .done :=
  (remaining_eq_zero_iff.1 h.remaining_edge).resolve_left (edgeEngine_of_run h.rst h.running).2.2

/-- Every other edge leaves a run that is due one edge sooner. -/
theorem ReadyRun.step (h : ReadyRun s d (k + 1)) :
    ∃ g, step s = .next ⟨s.cfg, edgeEngine s, Line.ready s.cfg.n, g⟩ ∧
      ReadyRun ⟨s.cfg, edgeEngine s, Line.ready s.cfg.n, g⟩ d k := by
  have hrun : ¬((edgeEngine s).phase = .idle ∨ (edgeEngine s).phase = .done) := fun hrest =>
    absurd (remaining_eq_zero_iff.2 hrest) (by rw [h.remaining_edge]; omega)
  obtain ⟨g, hstep, hg, hplan⟩ := step_ready (.inr h.safe.1.errNotReserved) (not_or.1 hrun).2 h.plan
  exact ⟨g, hstep, {
    safe := safeEngine_edgeEngine h.safe
    tracks := hg ▸ runTracks_edge_of_run h.safe h.tracks h.rst h.running
    running := (Phase.rest_or_run _).resolve_left hrun
    ports := rfl
    plan := hplan
    due := h.remaining_edge }⟩

end ReadyRun

theorem stepN_succ_of_step {s t : State} (h : step s = .next t) (k : Nat) : stepN (k + 1) s = stepN k t := by
  rw [stepN, h]

/-- After the edges that are due the run is DONE, still on its operands. -/
theorem ReadyRun.finishes {s : State} {d : Word s.cfg.n} {k : Nat} (h : ReadyRun s d k) :
    ∃ e l g, stepN (k + 1) s = .next ⟨s.cfg, e, l, g⟩ ∧ e.phase = .done ∧ e.m = s.eng.m ∧ e.err = s.eng.err ∧
      RunTracks e g.records d := by
  obtain ⟨hm, herr, -⟩ := edgeEngine_of_run h.rst h.running
  induction k generalizing s with
  | zero =>
    obtain ⟨l, g, hstep, hg⟩ := step_state (.inr h.safe.1.errNotReserved)
    rw [stepN_succ_of_step hstep]
    exact ⟨_, l, g, rfl, h.edge_done, hm, herr, hg ▸ runTracks_edge_of_run h.safe h.tracks h.rst h.running⟩
  | succ k ih =>
    obtain ⟨g, hstep, hnext⟩ := h.step
    obtain ⟨hm', herr', -⟩ := edgeEngine_of_run hnext.rst hnext.running
    obtain ⟨e, l, g', hrun, hdone, hem, heerr, ht⟩ := ih hnext hm' herr'
    rw [stepN_succ_of_step hstep]
    exact ⟨e, l, g', hrun, hdone, hem.trans hm, heerr.trans herr, ht⟩

/-- A DIV that is not refused, with a plan of `N + 1` ready edges behind it, begins such a run, due in `N + 1` edges. -/
theorem readyRun_of_div {s : State} (hr : s.ports.rst = false) (hs : s.ports.start = true)
    (hp : s.eng.phase = .idle ∨ s.eng.phase = .done) (herr : s.eng.err ≠ 0b11#2)
    (haccept : s.ports.divisor ≠ 0#_ ∨ s.cfg.div0Policy = .proceed) (hplan : ReadyPlan (s.cfg.n + 1) s.host.plan) :
    ∃ g, step s = .next ⟨s.cfg, edgeEngine s, Line.ready s.cfg.n, g⟩ ∧ (edgeEngine s).m = s.ports.divisor ∧
      ReadyRun ⟨s.cfg, edgeEngine s, Line.ready s.cfg.n, g⟩ s.ports.dividend s.cfg.n := by
  have hstart := edgeEngine_div hr hp hs
  have haccepted : nrDivide s.ports.dividend.toNat s.ports.divisor.toNat s.cfg.n s.cfg.div0Policy ≠ .rejected := by
    rw [nrDivide_words _ s.cfg.n_pos haccept]; nofun
  obtain ⟨code, hload⟩ := startRun_of_not_rejected haccepted
  have hedge := hstart.trans hload
  obtain ⟨g, hstep, hg, hrest⟩ := step_ready (.inr herr) (by rw [hedge]; nofun) hplan
  rw [collectedRecords_div hp hs] at hg
  refine ⟨g, hstep, by rw [hedge]; rfl, {
    safe := hstart ▸ safeEngine_startRun ..
    tracks := ?_
    running := .inl (by rw [hedge]; rfl)
    ports := rfl
    plan := hrest
    due := ?_ }⟩
  · rw [hg, hstart]; exact runTracks_startRun _ _
  · rw [hedge, remaining_iter rfl]; simp

/-- Settles O34: the DIV edge begins a run that is due in `N + 1` edges, each of which the ready host lets advance. -/
theorem readyHostFinishesRun : Obligations.ReadyHostFinishesRun := by
  intro s rest hr hs hp herr haccept hplan
  obtain ⟨g, hstep, hm, hrun⟩ := readyRun_of_div hr hs hp herr haccept ⟨rest, hplan⟩
  obtain ⟨e, l, g', hend, hdone, hem, heerr, ht⟩ := hrun.finishes
  have hreject : e.err ≠ 0b10#2 := heerr ▸ (hrun.safe.runErr (Phase.ne_rest_of_run hrun.running).2).1
  have hem' : e.m = s.ports.divisor := hem.trans hm
  refine ⟨e, l, g', (stepN_succ_of_step hstep _).trans hend, (outputs_done_iff e).2 hdone,
    (outputs_resultValid_iff e).2 ⟨hdone, hreject⟩, ?_⟩
  rw [← hem']
  exact nrDivide_of_tracks ht hdone hreject (hem'.symm ▸ haccept)

end Sys2Proof.Machine

/-! PROOF. Between runs: DONE is held (spec/42_correction.md R152), and a DIV forgets the past (R158). -/

namespace Sys2Proof.Machine

/-- A plan of lines that all satisfy `P` leaves such a line on the ports, and such a plan; an ended plan is read as
lines of zeros. -/
theorem nextTurn_of_lines {cfg : Config} {P : Line cfg.n → Prop} (hidle : P (Line.idle cfg.n)) (busy done : Bool)
    {plan : List (HostCmd cfg.n)} (reports : List HostReport) (h : ∀ c ∈ plan, ∃ l, c = .line l ∧ P l) :
    P (nextTurn cfg busy done plan reports).line ∧
      ∀ c ∈ (nextTurn cfg busy done plan reports).plan, ∃ l, c = .line l ∧ P l := by
  cases plan with
  | nil => exact ⟨hidle, h⟩
  | cons c rest =>
    obtain ⟨l, rfl, hl⟩ := h c List.mem_cons_self
    exact ⟨hl, fun c hc => h c (List.mem_cons_of_mem _ hc)⟩

/-- An edge with such a plan leaves such a line on the ports, and such a plan. -/
theorem step_lines {s : State} {P : Line s.cfg.n → Prop} (h : s.ports.rst = true ∨ s.eng.err ≠ 0b11#2)
    (hidle : P (Line.idle s.cfg.n)) (hplan : ∀ c ∈ s.host.plan, ∃ l, c = .line l ∧ P l) :
    ∃ l g, step s = .next ⟨s.cfg, edgeEngine s, l, g⟩ ∧ P l ∧ ∀ c ∈ g.plan, ∃ l, c = .line l ∧ P l :=
  ⟨_, _, step_turn h, nextTurn_of_lines hidle _ _ _ hplan⟩

/-- Settles O39: each edge is a HOLD, and the host's turn leaves another line without `rst` and `start`. -/
theorem doneIsHeld : Obligations.DoneIsHeld := by
  intro k s herr hp hr hs hplan
  have hdone : (outputs s.eng).done = true ∧ (outputs s.eng).busy = false := by simp [hp, Phase.code]
  induction k generalizing s with
  | zero => exact ⟨s.ports, s.host, rfl, hdone⟩
  | succ k ih =>
    obtain ⟨l, g, hstep, ⟨hr', hs'⟩, hplan'⟩ :=
      step_lines (P := fun l => l.rst = false ∧ l.start = false) (.inr herr) ⟨rfl, rfl⟩ hplan
    rw [edgeEngine_hold hr (.inr hp) hs] at hstep
    rw [stepN_succ_of_step hstep]
    exact ih ⟨s.cfg, s.eng, l, g⟩ herr hp hr' hs' hplan' hdone

/-- Settles O40: both states leave the registers of `startRun` on the ports' operands, and no record. -/
theorem divForgetsThePast : Obligations.DivForgetsThePast := by
  intro cfg e₁ e₂ l h₁ h₂ hp₁ hp₂ herr₁ herr₂ hr hs
  obtain ⟨l₁, g₁, hstep₁, hg₁, -⟩ := step_div (s := ⟨cfg, e₁, l, h₁⟩) hr hs hp₁ herr₁
  obtain ⟨l₂, g₂, hstep₂, hg₂, -⟩ := step_div (s := ⟨cfg, e₂, l, h₂⟩) hr hs hp₂ herr₂
  exact ⟨_, l₁, l₂, g₁, g₂, hstep₁, hstep₂, hg₁, hg₂⟩

end Sys2Proof.Machine

/-! PROOF. The correction family: which edges are CORR.NONE and CORR.ADD (spec/30_encoding.md R74), and what the two do
(spec/42_correction.md R150, R151). -/

namespace Sys2Proof.Machine

/-- In CORR an edge that advances is the correction that the sign of A chooses. -/
theorem decode_decodeWordOf_corr {s : State} (hr : s.ports.rst = false) (hp : s.eng.phase = .corr)
    (ha : s.eng.pend = false ∨ s.ports.stepReady = true) :
    decode (decodeWordOf s) =
      if signFlag s.eng.a then .corrAdd s.ports.start else .corrNone s.ports.start := by
  rw [decodeWordOf, decode_pack, hr, (advanceBit_iff ..).2 ha, selectBit_corr hp, hp]
  rfl

theorem exec_corrNone (s : State) (st : Bool) :
    exec (.corrNone st) s = .next { s with eng := finishRun s.eng } := exec_eq ..

theorem exec_corrAdd (s : State) (st : Bool) :
    exec (.corrAdd st) s = .next { s with eng := restoreAndFinish s.eng } := exec_eq ..

/-- Settles O21: an A below half the range selects it, and the registers are those of `finishRun`. -/
theorem corrNoneFinishes : Obligations.CorrNoneFinishes := by
  refine ⟨fun s hr hp ha hlt => ?_, fun s st h => acceptsRecord_of_encode (congrArg encode h), exec_corrNone⟩
  rw [decode_decodeWordOf_corr hr hp ha, if_neg]
  rw [signFlag_iff s.cfg.n_pos]
  exact Nat.not_le.2 hlt

/-- Settles O22: an A of at least half the range selects it, and the registers are those of `restoreAndFinish`. -/
theorem corrAddRestores : Obligations.CorrAddRestores := by
  refine ⟨fun s hr hp ha hle => ?_, fun s st h => acceptsRecord_of_encode (congrArg encode h),
    fun s st => ⟨_, exec_corrAdd s st, maskN_toNat ..⟩⟩
  rw [decode_decodeWordOf_corr hr hp ha, if_pos ((signFlag_iff s.cfg.n_pos _).2 hle)]

end Sys2Proof.Machine

/-! PROOF. What `nr_divide` computes (spec/42_correction.md R156 to R161): a zero divisor, true division on the domain
of R156, and the largest dividend by one. -/

namespace Sys2Proof.Machine

section Quotient
variable {n : Nat} (d m : Word n)

/-- After the last iteration Q holds quotient bits only (R127). -/
theorem iterAt_last_q : (iterAt d m n).q.toNat = quotientBits d m n := by
  rw [iterAt_q_toNat d m le_rfl, Nat.sub_self, pow_zero, Nat.mod_one, Nat.mul_zero, Nat.zero_add]

/-- While A is never negative every quotient bit is 1. -/
theorem quotientBits_of_nonneg {i : Nat} (h : ∀ j < i, signFlag (iterAt d m (j + 1)).a = false) :
    quotientBits d m i = 2 ^ i - 1 := by
  induction i with
  | zero => rfl
  | succ i ih =>
    have hpos := Nat.two_pow_pos i
    rw [quotientBits_succ, ih fun j hj => h j (by omega), h i (by omega), pow_succ, Bool.not_false, Bool.toNat_true]
    omega

/-- One more iteration uses one more bit of the dividend, the one that leaves Q. -/
theorem dividend_bits_succ {i : Nat} (hi : i < n) :
    d.toNat / 2 ^ (n - (i + 1)) = 2 * (d.toNat / 2 ^ (n - i)) + (carryBit (iterAt d m i).q).toNat := by
  have hprev : d.toNat / 2 ^ (n - i) = d.toNat / 2 ^ (n - (i + 1)) / 2 := by
    rw [Nat.div_div_eq_div_mul, ← pow_succ]; congr 2; omega
  rw [carryBit_iterAt d m hi, BitVec.getLsbD, Nat.toNat_testBit, hprev, Nat.div_add_mod]

end Quotient

@[simp] theorem signFlag_zero (n : Nat) : signFlag 0#n = false := BitVec.getLsbD_zero

section Corrected
variable {n : Nat} {a m : Word n}

theorem correctedA_of_nonneg (h : signFlag a = false) : correctedA a m = a := if_neg (by simp [h])

theorem correctedA_of_neg (h : signFlag a = true) : correctedA a m = a + m := (if_pos h).trans (restoreA_eq a m)

end Corrected

/-- Settles O50: only the last A can be negative, so only the last quotient bit can be 0; A ends as the dividend, and
the correction adds the divisor, 0. -/
theorem zeroDivisorResult : Obligations.ZeroDivisorResult := by
  intro n d hn
  have hlast : (iterAt d 0#n n).a = d :=
    BitVec.eq_of_toNat_eq (by rw [iterAt_zero_divisor_a d le_rfl, Nat.sub_self, pow_zero, Nat.div_one])
  have hcorrected : correctedA (iterAt d 0#n n).a 0#n = d := by
    rw [hlast]
    cases hs : signFlag d
    · exact correctedA_of_nonneg hs
    · rw [correctedA_of_neg hs, BitVec.add_zero]
  have hnonneg : ∀ j < n - 1, signFlag (iterAt d 0#n (j + 1)).a = false := by
    intro j hj
    rw [signFlag, iterAt_zero_divisor_sign d (by omega), BitVec.getLsbD_of_ge _ _ (by omega)]
  have hbits : quotientBits d 0#n n = 2 ^ n - 1 - (d.getLsbD (n - 1)).toNat := by
    obtain ⟨k, rfl⟩ := Nat.exists_eq_add_one.2 hn
    have hpos := Nat.two_pow_pos k
    rw [quotientBits_succ, quotientBits_of_nonneg d _ (i := k) hnonneg, hlast, signFlag, pow_succ]
    cases d.getLsbD (k + 1 - 1) <;> simp <;> omega
  have hresult := nrDivide_words (policy := .proceed) d (m := 0#n) hn (.inr rfl)
  rw [hcorrected, BitVec.toNat_zero] at hresult
  exact ⟨_, _, hresult, (iterAt_last_q d _).trans hbits, by rw [hlast], by rw [restoreA_eq, BitVec.add_zero]⟩

/-! True division. Whichever operation an iteration applies, its new A is the corrected A, shifted, minus M, as long as
the sign of A chose the operation or M is its own negative: the trial subtraction of restoring division. -/

section TrialSubtraction
variable {n : Nat} {a q m : Word n}

theorem shiftedA_eq_add : shiftedA a q = a + a + BitVec.ofNat n (carryBit q).toNat := by
  rw [shiftedA, maskN, BitVec.ofNat_add, two_mul, BitVec.ofNat_add, BitVec.ofNat_toNat, BitVec.setWidth_eq]

theorem shiftedA_add (b : Word n) : shiftedA (a + b) q = shiftedA a q + (b + b) := by
  rw [shiftedA_eq_add, shiftedA_eq_add]
  abel

/-- The trial subtraction: for a negative A the correction adds M before the shift doubles it, and so 2M after it. -/
theorem nrIter_a_eq_trial (h : signFlag (shiftedA a q) = signFlag a ∨ m + m = 0#n) :
    (nrIter a q m).a = shiftedA (correctedA a m) q - m := by
  have hcorrected : shiftedA (correctedA a m) q = shiftedA a q + if signFlag a then m + m else 0#n := by
    cases hs : signFlag a
    · rw [correctedA_of_nonneg hs, if_neg Bool.false_ne_true, BitVec.add_zero]
    · rw [correctedA_of_neg hs, shiftedA_add, if_pos rfl]
  rw [nrIter, iterWith_a, hcorrected]
  rcases h with hsel | hself
  · rw [hsel]
    cases signFlag a
    · rw [addOrSub_false, if_neg Bool.false_ne_true, BitVec.add_zero]
    · rw [addOrSub_true, if_pos rfl]
      abel
  · have hneg : m = -m := eq_neg_of_add_eq_zero_left hself
    rw [hself, ite_self, BitVec.add_zero]
    cases signFlag (shiftedA a q)
    · rw [addOrSub_false]
    · rw [addOrSub_true, BitVec.sub_eq_add_neg, ← hneg]

/-- A trial subtraction from `x < 2M` gives the quotient bit of `x` by M as its sign, and the remainder once it is
corrected. -/
theorem trial_subtraction {x : Nat} (hn : 1 ≤ n) (hm : m.toNat ≤ 2 ^ (n - 1)) (hx : x < 2 * m.toNat) :
    (!signFlag (maskN n x - m)).toNat = x / m.toNat ∧ (correctedA (maskN n x - m) m).toNat = x % m.toNat := by
  have hwidth := Nat.two_pow_pred_add_two_pow_pred hn
  have hfits : (maskN n x).toNat = x := maskN_toNat_of_lt (by omega)
  by_cases hlt : x < m.toNat
  · have hneg : signFlag (maskN n x - m) = true := by
      rw [signFlag_iff hn, BitVec.toNat_sub, hfits, Nat.mod_eq_of_lt (by omega)]
      omega
    rw [correctedA_of_neg hneg, BitVec.sub_add_cancel, hfits, hneg, Nat.div_eq_of_lt hlt, Nat.mod_eq_of_lt hlt]
    exact ⟨rfl, rfl⟩
  · have hsub : (maskN n x - m).toNat = x - m.toNat := by
      rw [BitVec.toNat_sub_of_le (by rw [BitVec.le_def, hfits]; omega), hfits]
    have hnonneg : signFlag (maskN n x - m) = false := by
      rw [← Bool.not_eq_true, signFlag_iff hn, hsub]
      omega
    have hdiv : x / m.toNat = 1 := Nat.div_eq_of_lt_le (by omega) (by omega)
    have hmod : x % m.toNat = x - m.toNat := by
      rw [Nat.mod_eq_sub_mod (by omega), Nat.mod_eq_of_lt (by omega)]
    rw [correctedA_of_nonneg hnonneg, hsub, hnonneg, hdiv, hmod]
    exact ⟨rfl, rfl⟩

end TrialSubtraction

/-- Long division: appending the bit `c` to the dividend `p` appends a bit to the quotient. -/
theorem div_mod_append_bit {m : Nat} (hm : 0 < m) (p c : Nat) :
    (2 * p + c) / m = 2 * (p / m) + (2 * (p % m) + c) / m ∧ (2 * p + c) % m = (2 * (p % m) + c) % m := by
  have hsplit : 2 * p + c = m * (2 * (p / m)) + (2 * (p % m) + c) := by
    conv_lhs => rw [← Nat.div_add_mod p m]
    ring
  rw [hsplit, Nat.mul_add_div hm, Nat.mul_add_mod]
  exact ⟨rfl, rfl⟩

section TrueDivision
variable {n : Nat} {d m : Word n}

/-- In R156's domain the quotient bits and the corrected A are, after each iteration, the quotient and the remainder of
the dividend bits used so far. -/
theorem quotientBits_correctedA_div_mod (hpos : 1 ≤ m.toNat) (hm : m.toNat ≤ 2 ^ (n - 1))
    (htrial : ∀ i < n, (iterAt d m (i + 1)).a = shiftedA (correctedA (iterAt d m i).a m) (iterAt d m i).q - m)
    {i : Nat} (hi : i ≤ n) :
    quotientBits d m i = d.toNat / 2 ^ (n - i) / m.toNat ∧
      (correctedA (iterAt d m i).a m).toNat = d.toNat / 2 ^ (n - i) % m.toNat := by
  induction i with
  | zero =>
    simp [quotientBits_zero, correctedA_of_nonneg, Nat.div_eq_of_lt d.isLt]
  | succ i ih =>
    obtain ⟨hquotient, hremainder⟩ := ih (by omega)
    have hcarry := Bool.toNat_lt (carryBit (iterAt d m i).q)
    have hlt := Nat.mod_lt (d.toNat / 2 ^ (n - i)) hpos
    obtain ⟨hdiv, hmod⟩ := div_mod_append_bit hpos (d.toNat / 2 ^ (n - i)) (carryBit (iterAt d m i).q).toNat
    obtain ⟨hbit, hrest⟩ := trial_subtraction (n := n) (by omega) hm
      (x := 2 * (d.toNat / 2 ^ (n - i) % m.toNat) + (carryBit (iterAt d m i).q).toNat) (by omega)
    rw [quotientBits_succ, htrial i hi, shiftedA, hremainder, hquotient, hbit, hrest, dividend_bits_succ d m hi,
      hdiv, hmod]
    exact ⟨rfl, rfl⟩

/-- `nr_divide` divides truly where each iteration is a trial subtraction. -/
theorem nrDivide_of_trial {policy : Div0Policy} (hn : 1 ≤ n) (hpos : 1 ≤ m.toNat) (hm : m.toNat ≤ 2 ^ (n - 1))
    (h : ∀ i < n, signFlag (shiftedA (iterAt d m i).a (iterAt d m i).q) = signFlag (iterAt d m i).a ∨ m + m = 0#n) :
    ∃ q r steps, nrDivide d.toNat m.toNat n policy = .result q r steps ∧
      q.toNat = d.toNat / m.toNat ∧ r.toNat = d.toNat % m.toNat := by
  have hnonzero : m ≠ 0#n := by rintro rfl; simp at hpos
  obtain ⟨hq, hr⟩ := quotientBits_correctedA_div_mod hpos hm (fun i hi => nrIter_a_eq_trial (h i hi)) le_rfl
  rw [Nat.sub_self, pow_zero, Nat.div_one] at hq hr
  exact ⟨_, _, _, nrDivide_words d hn (.inl hnonzero), (iterAt_last_q d m).trans hq, hr⟩

end TrueDivision

theorem exists_word_toNat {n v : Nat} (h : v < 2 ^ n) : ∃ w : Word n, w.toNat = v := ⟨maskN n v, maskN_toNat_of_lt h⟩

section Signed
variable {n : Nat}

/-- In R131's domain the shift does not wrap, so it keeps the sign of A. -/
theorem signFlag_shiftedA_of_small {a m : Word n} (q : Word n) (hn : 2 ≤ n) (hm : m.toNat ≤ 2 ^ (n - 2))
    (hlow : -(m.toNat : Int) ≤ a.toInt) (hhigh : a.toInt < m.toNat) : signFlag (shiftedA a q) = signFlag a := by
  have hhalf := two_mul_divisor_le hn hm
  have hcarry := Bool.toNat_lt (carryBit q)
  rw [Bool.eq_iff_iff, signFlag_iff_toInt_neg, signFlag_iff_toInt_neg, shiftedA_eq_ofInt,
    BitVec.toInt_ofInt_eq_self (by omega) (by omega) (by omega)]
  omega

/-- R131's bounds hold before the first iteration too. -/
theorem iterAt_toInt_bounds {d m : Word n} (hn : 2 ≤ n) (hpos : 1 ≤ m.toNat) (hm : m.toNat ≤ 2 ^ (n - 2)) {i : Nat}
    (hi : i ≤ n) : -(m.toNat : Int) ≤ (iterAt d m i).a.toInt ∧ (iterAt d m i).a.toInt < m.toNat := by
  cases i with
  | zero => rw [iterAt_zero, BitVec.toInt_zero]; omega
  | succ i => exact (signedRecurrence n d m hn hpos hm (i + 1) (by omega) hi).2

end Signed

/-- Settles O52: by R131 the sign of A survives the shift, so each iteration is a trial subtraction. -/
theorem trueDivisionOnSmallDivisors : Obligations.TrueDivisionOnSmallDivisors := by
  intro n x y policy hn hx hpos hy
  have hhalf : y ≤ 2 ^ (n - 1) := hy.trans (Nat.pow_le_pow_right Nat.two_pos (by omega))
  obtain ⟨d, rfl⟩ := exists_word_toNat hx
  obtain ⟨m, rfl⟩ := exists_word_toNat (Nat.lt_of_le_of_lt hhalf (Nat.two_pow_pred_lt_two_pow (by omega)))
  refine nrDivide_of_trial (by omega) hpos hhalf fun i hi => .inl ?_
  obtain ⟨hlow, hhigh⟩ := iterAt_toInt_bounds (d := d) hn hpos hy hi.le
  exact signFlag_shiftedA_of_small _ hn hy hlow hhigh

/-- Twice the top power is 0 in N bits. -/
theorem add_self_of_top_power {n : Nat} {m : Word n} (hn : 1 ≤ n) (hm : m.toNat = 2 ^ (n - 1)) : m + m = 0#n := by
  apply BitVec.eq_of_toNat_eq
  rw [BitVec.toNat_add, hm, Nat.two_pow_pred_add_two_pow_pred hn, Nat.mod_self, BitVec.toNat_zero]

/-- Settles O53: adding and subtracting `2^(n-1)` are the same, so each iteration is a trial subtraction. -/
theorem trueDivisionByTopPower : Obligations.TrueDivisionByTopPower := by
  intro n x policy hn hx
  obtain ⟨d, rfl⟩ := exists_word_toNat hx
  obtain ⟨m, hm⟩ := exists_word_toNat (Nat.two_pow_pred_lt_two_pow hn)
  rw [← hm]
  exact nrDivide_of_trial hn (hm ▸ Nat.one_le_two_pow) hm.le fun _ _ => .inr (add_self_of_top_power hn hm)

section Largest
variable {n : Nat}

theorem ofNat_largest : BitVec.ofNat n (2 ^ n - 1) = BitVec.allOnes n := by
  rw [← BitVec.toNat_allOnes, BitVec.ofNat_toNat, BitVec.setWidth_eq]

/-- Each iteration shifts a 1 into A and takes the divisor 1 away again (R161). -/
theorem iterAt_largest_by_one_a {i : Nat} (hi : i ≤ n) : (iterAt (BitVec.allOnes n) 1#n i).a = 0#n := by
  induction i with
  | zero => rfl
  | succ i ih =>
    have hcarry : carryBit (iterAt (BitVec.allOnes n) 1#n i).q = true := by
      rw [carryBit_iterAt _ _ hi, BitVec.getLsbD_allOnes, decide_eq_true (by omega)]
    have htrial : signFlag (shiftedA 0#n (iterAt (BitVec.allOnes n) 1#n i).q) = signFlag 0#n ∨ 1#n + 1#n = 0#n := by
      obtain hn | rfl : 2 ≤ n ∨ n = 1 := by omega
      · exact .inl (by rw [signFlag_shiftedA hn, signFlag_zero, BitVec.getLsbD_zero])
      · exact .inr rfl
    rw [iterAt_succ, ih (by omega), nrIter_a_eq_trial htrial, correctedA_of_nonneg (signFlag_zero n), shiftedA, hcarry]
    exact BitVec.sub_self 1#n

end Largest

/-- Settles O55: A is 0 after each iteration, so no quotient bit is 0, and for `n ≥ 2` the operation, a bit of A, is the
subtraction. -/
theorem largestDividendByOne : Obligations.LargestDividendByOne := by
  intro n policy hn
  rw [ofNat_largest]
  have hzero : ∀ i ≤ n, (iterAt (BitVec.allOnes n) 1#n i).a = 0#n := fun i hi => iterAt_largest_by_one_a hi
  have hcorrected : correctedA (iterAt (BitVec.allOnes n) 1#n n).a 1#n = 0#n := by
    rw [hzero n le_rfl, correctedA_of_nonneg (signFlag_zero n)]
  have hone : (1#n).toNat = 1 := by rw [BitVec.toNat_ofNat, Nat.mod_eq_of_lt (Nat.one_lt_two_pow (by omega))]
  have hnonzero : 1#n ≠ 0#n := fun h => by simp [h] at hone
  have hresult := nrDivide_words (policy := policy) (BitVec.allOnes n) hn (.inl hnonzero)
  rw [BitVec.toNat_allOnes, hone, hcorrected] at hresult
  refine ⟨_, _, hresult, ?_, hzero, fun hwide i hi => ?_⟩
  · rw [iterAt_last_q]
    exact quotientBits_of_nonneg _ _ fun j hj => by rw [hzero (j + 1) hj, signFlag_zero]
  · cases i with
    | zero => rfl
    | succ i => rw [iterAt_succ_op, signFlag_shiftedA hwide, hzero i (by omega), BitVec.getLsbD_zero]

/-- Settles O54: the loop evaluated on the four pairs. -/
theorem outsideTheDomainExamples : Obligations.OutsideTheDomainExamples :=
  ⟨⟨_, rfl⟩, ⟨_, rfl⟩, ⟨_, rfl⟩, ⟨_, rfl⟩⟩

end Sys2Proof.Machine

/-! PROOF. Operand strings and requests (spec/43_host_interface.md R171 to R173), what a port carries (R172), and
presented values (R176). -/

namespace Sys2Proof.Machine

section OperandText

theorem validOperandText_iff (t : List Char) :
    validOperandText t = true ↔ t ≠ [] ∧ ∀ ch ∈ t, ch = '0' ∨ ch = '1' := by
  simp [validOperandText, isBinaryDigit]

/-- The value of a character of an operand string (R172). -/
def digitOfChar (ch : Char) : Nat := if ch = '1' then 1 else 0

theorem digitOfChar_lt_two (ch : Char) : digitOfChar ch < 2 := by
  unfold digitOfChar
  split <;> decide

/-- The digits of an operand string, the least significant first, as Mathlib's `Nat.ofDigits` reads them. -/
def digitsOfText (t : List Char) : List Nat := t.reverse.map digitOfChar

theorem digitsOfText_lt_two {t : List Char} : ∀ b ∈ digitsOfText t, b < 2 :=
  List.forall_mem_map.2 fun ch _ => digitOfChar_lt_two ch

theorem binaryValue_eq_ofDigits (t : List Char) : binaryValue t = Nat.ofDigits 2 (digitsOfText t) := by
  rw [binaryValue, List.foldl_eq_foldr_reverse, digitsOfText, Nat.ofDigits_eq_foldr, List.foldr_map]
  exact congrArg (List.foldr · 0 t.reverse) (funext₂ fun ch acc => Nat.add_comm (2 * acc) (digitOfChar ch))

/-- The low `n` digits are those of the rightmost `n` characters. -/
theorem digitsOfText_take (t : List Char) (n : Nat) :
    (digitsOfText t).take n = digitsOfText (t.drop (t.length - n)) := by
  rw [digitsOfText, ← List.map_take, List.take_reverse, digitsOfText]

theorem operandOfText_toNat (n : Nat) (t : List Char) :
    (operandOfText n t).toNat = binaryValue (t.drop (t.length - n)) := by
  rw [operandOfText, maskN_toNat, binaryValue_eq_ofDigits,
    Nat.ofDigits_mod_pow_eq_ofDigits_take n Nat.two_pos _ digitsOfText_lt_two, digitsOfText_take,
    binaryValue_eq_ofDigits]

theorem operandOfText_toNat_of_length_le {n : Nat} {t : List Char} (h : t.length ≤ n) :
    (operandOfText n t).toNat = binaryValue t := by
  rw [operandOfText_toNat, Nat.sub_eq_zero_of_le h, List.drop_zero]

/-- The weighted digits, in the places they have from the right. -/
theorem digitsOfText_mapIdx_weight (t : List Char) :
    ((digitsOfText t).mapIdx fun k b => b * 2 ^ k) =
      (List.range t.length).map fun k => (if t.reverse[k]? = some '1' then 1 else 0) * 2 ^ k := by
  refine List.ext_getElem (by simp [digitsOfText]) fun k hk _ => ?_
  have hk' : k < t.reverse.length := by simpa [digitsOfText] using hk
  rw [List.getElem_mapIdx, List.getElem_map, List.getElem_range, List.getElem?_eq_getElem hk']
  simp [digitsOfText, digitOfChar]

theorem binaryValue_eq_sum (t : List Char) : binaryValue t =
    ((List.range t.length).map fun k => (if t.reverse[k]? = some '1' then 1 else 0) * 2 ^ k).sum := by
  rw [binaryValue_eq_ofDigits, Nat.ofDigits_eq_sum_mapIdx, digitsOfText_mapIdx_weight]

end OperandText

section Requests
variable {cfg : Config} {d v : List Char}

theorem requestLine_of_valid (hd : validOperandText d = true) (hv : validOperandText v = true) :
    requestLine cfg d v cfg.n = .ok ⟨false, true, false, operandOfText cfg.n d, operandOfText cfg.n v⟩ :=
  if_pos ⟨hd, hv, rfl⟩

theorem requestLine_of_invalid {w : Int}
    (h : validOperandText d = false ∨ validOperandText v = false ∨ w ≠ cfg.n) :
    requestLine cfg d v w = .error .invalidInput := by
  refine if_neg ?_
  rintro ⟨hd, hv, hw⟩
  simp [hd, hv, hw] at h

/-- A refused request adds its report and leaves the turn to the rest of the plan. -/
theorem nextTurn_divide_of_error {w : Int} {r : HostReport} (h : requestLine cfg d v w = .error r)
    (busy done : Bool) (rest : List (HostCmd cfg.n)) (reports : List HostReport) :
    nextTurn cfg busy done (.divide d v w :: rest) reports = nextTurn cfg busy done rest (reports ++ [r]) := by
  rw [nextTurn, h]

end Requests

/-- Settles O58: a port keeps the low N digits, which are those of the rightmost N characters. -/
theorem operandTextIsTruncated : Obligations.OperandTextIsTruncated :=
  ⟨binaryValue_eq_sum, fun n t _ => ⟨operandOfText_toNat n t, operandOfText_toNat_of_length_le⟩,
    fun _ _ _ hd hv => ⟨_, requestLine_of_valid hd hv, rfl, rfl, rfl, rfl⟩⟩

/-- Settles O59: `requestLine` refuses the request, so the host's turn is that of the rest of the plan. -/
theorem invalidInputIssuesNoDiv : Obligations.InvalidInputIssuesNoDiv := by
  refine ⟨validOperandText_iff, fun s d v w rest h => ?_⟩
  simp only [driveNext, nextTurn_divide_of_error (requestLine_of_invalid h)]

/-- Settles O60: the digits of `binaryText` read back as the value by `binaryValue_binaryText`. -/
theorem presentedBinaryIsPadded : Obligations.PresentedBinaryIsPadded :=
  ⟨fun _ w => ⟨binaryText_length w, binaryValue_binaryText w, validOperandText_binaryText w⟩, rfl, rfl, by decide⟩

end Sys2Proof.Machine

/-! PROOF. What can and cannot fail (spec/60_exceptions.md R202, R206): elaboration and `nr_divide` on their widths,
and the arithmetic micro-operations on any operands. -/

namespace Sys2Proof.Machine

/-- Settles O23: each of the four answers a next state, and neither an iteration nor the end of a run writes ERR. -/
theorem arithmeticNeverFails : Obligations.ArithmeticNeverFails := by
  intro i s h
  cases i with
  | stepSub st => exact ⟨_, exec_stepSub s st, iterate_err ..⟩
  | stepAdd st => exact ⟨_, exec_stepAdd s st, iterate_err ..⟩
  | corrNone st => exact ⟨_, exec_corrNone s st, finishRun_err ..⟩
  | corrAdd st => exact ⟨_, exec_corrAdd s st, restoreAndFinish_err ..⟩
  | reset | hold | div | stall => simp [isIteration, isCorrection] at h

section Elaborate
variable {n : Int} {ws : List Nat} {p : Div0Policy} {cfg : Config}

theorem elaborate_of_nonpos (hn : n ≤ 0) : elaborate n ws p = .error .invalidBitWidth := if_pos hn

/-- What is elaborated is what was asked for: the one branch of `elaborate` that answers takes its arguments as they
are, and a width that is not refused is its own natural number. -/
theorem fields_of_elaborate_ok (h : elaborate n ws p = .ok cfg) :
    (cfg.n : Int) = n ∧ cfg.supportedWidths = ws ∧ cfg.div0Policy = p := by
  unfold elaborate at h
  split_ifs at h with hnonpos hset hmem
  obtain rfl := Except.ok.inj h
  exact ⟨Int.toNat_of_nonneg (not_le.1 hnonpos).le, rfl, rfl⟩

/-- The proofs a configuration carries are the checks that elaboration makes. -/
theorem elaborate_config (cfg : Config) : elaborate cfg.n cfg.supportedWidths cfg.div0Policy = .ok cfg := by
  have hpos : ¬(cfg.n : Int) ≤ 0 := not_le.2 (Int.natCast_pos.2 cfg.n_pos)
  have hset : 1 ≤ cfg.n ∧ cfg.supportedWidths.Pairwise (· < ·) ∧ ∀ w ∈ cfg.supportedWidths, 1 ≤ w :=
    ⟨cfg.n_pos, cfg.widths_sorted, cfg.widths_pos⟩
  exact (if_neg hpos).trans ((dif_pos hset).trans (dif_pos cfg.n_supported))

theorem elaborate_ok_iff :
    elaborate n ws p = .ok cfg ↔ (cfg.n : Int) = n ∧ cfg.supportedWidths = ws ∧ cfg.div0Policy = p := by
  refine ⟨fields_of_elaborate_ok, ?_⟩
  rintro ⟨rfl, rfl, rfl⟩
  exact elaborate_config cfg

end Elaborate

theorem nrDivide_width_zero (x y : Nat) (p : Div0Policy) : nrDivide x y 0 p = .invalidBitWidth := if_pos Nat.zero_lt_one

/-- Settles O56: a configuration is exactly what passes elaboration's checks, and its own proofs are those checks. -/
theorem elaborationRefusesBadWidths : Obligations.ElaborationRefusesBadWidths :=
  ⟨fun _ _ _ => elaborate_of_nonpos, fun _ _ _ _ => elaborate_ok_iff, fun cfg => ⟨cfg.n_pos, cfg.n_supported⟩,
    nrDivide_width_zero⟩

end Sys2Proof.Machine

/-! PROOF. Reset (spec/70_reset_and_hazards.md R230, R231). -/

namespace Sys2Proof.Machine

/-- With `rst` the micro-operation is RESET, whatever the other fields of U are (R76). -/
theorem decode_decodeWordOf_reset {s : State} (hr : s.ports.rst = true) :
    decode (decodeWordOf s) =
      .reset s.eng.phase s.ports.start (advanceBit s.eng s.ports.stepReady) (selectBit s.eng) := by
  rw [decodeWordOf, decode_pack, if_pos hr]

theorem exec_reset (s : State) (p : Phase) (st ad se : Bool) :
    exec (.reset p st ad se) s = .next { s with eng := Engine.reset s.cfg } := exec_eq ..

/-- A reset edge completes even where ERR is reserved: it leaves the reset registers, and a host without records. -/
theorem step_reset {s : State} (hr : s.ports.rst = true) :
    ∃ l g, step s = .next ⟨s.cfg, Engine.reset s.cfg, l, g⟩ ∧ g.records = [] := by
  obtain ⟨l, g, hstep, hg⟩ := step_state (.inl hr)
  rw [edgeEngine_reset hr] at hstep
  exact ⟨l, g, hstep, hg.trans (collectedRecords_reset hr)⟩

/-- Settles O12: RESET's arm of `exec` writes the reset registers, and `rst` selects it and overrides the one fault. -/
theorem resetClearsEveryRegister : Obligations.ResetClearsEveryRegister := by
  refine ⟨exec_reset, fun s hr => ⟨⟨_, _, _, _, decode_decodeWordOf_reset hr⟩, ?_⟩⟩
  obtain ⟨l, g, hstep, -⟩ := step_reset hr
  exact ⟨l, g, hstep⟩

/-- Settles O13: the reset registers have PEND = 0 and PHASE = IDLE, and the host's records are dropped. -/
theorem resetWithdrawsPendingRecord : Obligations.ResetWithdrawsPendingRecord := by
  intro s hr
  obtain ⟨l, g, hstep, hg⟩ := step_reset hr
  exact ⟨_, l, g, hstep, rfl, rfl, hg⟩

end Sys2Proof.Machine

/-! PROOF. Progress and stalls (spec/70_reset_and_hazards.md R240). -/

namespace Sys2Proof.Machine

/-- Settles O37: without acceptance the edge is a stall; otherwise one micro-operation less is due, and as an edge of a
run cannot lead to IDLE, none is due in DONE alone. -/
theorem acceptedEdgesMakeProgress : Obligations.AcceptedEdgesMakeProgress := by
  intro s hi hr hp
  obtain ⟨l, g, hstep, -⟩ := step_state (.inr hi.errNotReserved)
  obtain ⟨-, -, hnotIdle⟩ := edgeEngine_of_run hr hp
  refine ⟨_, l, g, hstep, fun ⟨hd, hy⟩ => edgeEngine_stall hr hp hd hy, remaining_edgeEngine hi hr hp, ?_⟩
  rw [remaining_eq_zero_iff, or_iff_right hnotIdle]

/-- Settles O38: each edge is a stall, and the host's turn leaves another line without `rst` and `step_ready`. -/
theorem neverReadyHostStallsForever : Obligations.NeverReadyHostStallsForever := by
  intro k s herr hp hd hr hy hplan
  induction k generalizing s with
  | zero => exact ⟨s.ports, s.host, rfl⟩
  | succ k ih =>
    obtain ⟨l, g, hstep, ⟨hr', hy'⟩, hplan'⟩ :=
      step_lines (P := fun l => l.rst = false ∧ l.stepReady = false) (.inr herr) ⟨rfl, rfl⟩ hplan
    rw [edgeEngine_stall hr hp hd hy] at hstep
    rw [stepN_succ_of_step hstep]
    exact ih ⟨s.cfg, s.eng, l, g⟩ herr hp hd hr' hy' hplan'

end Sys2Proof.Machine

/-! PROOF. Which input ports an edge samples (spec/70_reset_and_hazards.md R235, R236, R238), and how the host's request
waits for a run to end (R233). -/

namespace Sys2Proof.Machine

/-- The line `l` agrees with the ports where the coming edge looks: `start` matters only at rest, `step_ready` only
beside a pending record, and the operands only where the edge is a DIV. -/
structure SamplesAlike (s : State) (l : Line s.cfg.n) : Prop where
  rst : l.rst = s.ports.rst
  start : l.start = s.ports.start ∨ s.eng.phase = .iter ∨ s.eng.phase = .corr
  ready : l.stepReady = s.ports.stepReady ∨ s.eng.pend = false
  operands : (l.dividend = s.ports.dividend ∧ l.divisor = s.ports.divisor) ∨
    s.ports.rst = true ∨ s.ports.start = false ∨ s.eng.phase = .iter ∨ s.eng.phase = .corr

theorem Phase.not_run_of_rest {p : Phase} (h : p = .idle ∨ p = .done) : ¬(p = .iter ∨ p = .corr) := by
  rcases h with rfl | rfl <;> decide

section SamplesAlike
variable {s : State} {l : Line s.cfg.n}

/-- Such a line leaves the same registers. -/
theorem SamplesAlike.edgeEngine_eq (h : SamplesAlike s l) : edgeEngine { s with ports := l } = edgeEngine s := by
  obtain ⟨hr, he⟩ | ⟨hr, ⟨hp, hrest⟩ | ⟨hp, hrun⟩⟩ := edgeEngine_cases s
  · rw [he]
    exact edgeEngine_reset (s := { s with ports := l }) (h.rst.trans hr)
  · have hr' := h.rst.trans hr
    have hnotRun := Phase.not_run_of_rest hp
    have hstart := h.start.resolve_right hnotRun
    obtain ⟨hs, he⟩ | ⟨hs, he⟩ := hrest
    · obtain ⟨hd, hv⟩ := h.operands.resolve_right (by simpa [hr, hs] using hnotRun)
      rw [he, ← hd, ← hv]
      exact edgeEngine_div (s := { s with ports := l }) hr' hp (hstart.trans hs)
    · rw [he]
      exact edgeEngine_hold (s := { s with ports := l }) hr' hp (hstart.trans hs)
  · have hr' := h.rst.trans hr
    obtain ⟨hd, hy, he⟩ | ⟨ha, hdue⟩ := hrun
    · have hy' := (h.ready.resolve_right (by simp [hd])).trans hy
      rw [he]
      exact edgeEngine_stall (s := { s with ports := l }) hr' hp hd hy'
    · have ha' : s.eng.pend = false ∨ l.stepReady = true :=
        ha.elim .inl fun hy => h.ready.symm.imp_right fun heq => heq.trans hy
      obtain ⟨hp, he⟩ | ⟨hp, he⟩ := hdue <;> rw [he]
      · exact edgeEngine_iter (s := { s with ports := l }) hr' hp ha'
      · exact edgeEngine_corr (s := { s with ports := l }) hr' hp ha'

theorem SamplesAlike.acceptsRecord_eq (h : SamplesAlike s l) :
    acceptsRecord { s with ports := l } = acceptsRecord s := by
  rcases h.ready with hy | hd
  · simp [acceptsRecord, h.rst, hy]
  · simp [acceptsRecord, hd]

theorem SamplesAlike.collectedRecords_eq (h : SamplesAlike s l) :
    collectedRecords { s with ports := l } = collectedRecords s := by
  have hdiv : (l.start && !(outputs s.eng).busy) = (s.ports.start && !(outputs s.eng).busy) := by
    rcases h.start with hs | hp | hp
    · rw [hs]
    all_goals simp [hp]
  simp only [collectedRecords, h.acceptsRecord_eq, h.rst, hdiv]

theorem SamplesAlike.runAtEdge_eq (h : SamplesAlike s l) : runAtEdge { s with ports := l } = runAtEdge s := by
  rcases h.start with hs | hp
  · rw [runAtEdge, hs, runAtEdge]
  · rw [runAtEdge_run hp, runAtEdge_run (by exact hp)]

/-- The whole step is the same on either, the host's part and the fault included. -/
theorem SamplesAlike.step_eq (h : SamplesAlike s l) : step { s with ports := l } = step s :=
  step_ports_congr h.rst h.edgeEngine_eq h.collectedRecords_eq h.runAtEdge_eq

end SamplesAlike

/-- Settles O42: the edge is not a DIV, so it does not look at the operands. -/
theorem operandsSampledOnlyAtDiv : Obligations.OperandsSampledOnlyAtDiv := fun _ _ _ hnotDiv =>
  SamplesAlike.step_eq { rst := rfl, start := .inl rfl, ready := .inl rfl, operands := .inr hnotDiv }

/-- Settles O43: without a pending record no edge looks at `step_ready`, and in ITER it iterates, which presents a
record, while the host keeps its list. -/
theorem readyWithoutRecordHasNoEffect : Obligations.ReadyWithoutRecordHasNoEffect := by
  refine ⟨fun s b hd => SamplesAlike.step_eq
    { rst := rfl, start := .inl rfl, ready := .inr hd, operands := .inl ⟨rfl, rfl⟩ }, fun s hr herr hp hd => ?_⟩
  obtain ⟨l, g, hstep, hg⟩ := step_state (.inr herr)
  refine ⟨_, l, g, hstep, ?_, hg.trans (collectedRecords_kept hr (.inr (.inl hp)) (.inl hd))⟩
  rw [edgeEngine_iter hr hp (.inl hd), iterate_pend]

section Requests
variable {cfg : Config} {d v : List Char} (done : Bool) (rest : List (HostCmd cfg.n)) (reports : List HostReport)

/-- A valid request stays at the head of the plan while a run is in progress. -/
theorem nextTurn_divide_busy (hd : validOperandText d = true) (hv : validOperandText v = true) :
    nextTurn cfg true done (.divide d v cfg.n :: rest) reports =
      ⟨Line.ready cfg.n, .divide d v cfg.n :: rest, reports⟩ := by
  rw [nextTurn, requestLine_of_valid hd hv]
  rfl

/-- At rest it is the DIV line of its operands. -/
theorem nextTurn_divide_atRest (hd : validOperandText d = true) (hv : validOperandText v = true) :
    nextTurn cfg false done (.divide d v cfg.n :: rest) reports =
      ⟨⟨false, true, false, operandOfText cfg.n d, operandOfText cfg.n v⟩, rest, reports⟩ := by
  rw [nextTurn, requestLine_of_valid hd hv]
  rfl

end Requests

/-- The host's turn gives the ports their line and the host its plan and reports; the rest of the host stays. -/
theorem driveNext_of_turn {s : State} {turn : Turn s.cfg.n}
    (h : nextTurn s.cfg (outputs s.eng).busy (outputs s.eng).done s.host.plan s.host.reports = turn) :
    (driveNext s).ports = turn.line ∧
      (driveNext s).host = { s.host with plan := turn.plan, reports := turn.reports } := by
  subst h
  exact ⟨rfl, rfl⟩

section DriveRequest
variable {s : State} {d v : List Char} {rest : List (HostCmd s.cfg.n)}

theorem driveNext_request_run (hp : s.eng.phase = .iter ∨ s.eng.phase = .corr)
    (hd : validOperandText d = true) (hv : validOperandText v = true)
    (hplan : s.host.plan = .divide d v s.cfg.n :: rest) :
    (driveNext s).ports = Line.ready s.cfg.n ∧ (driveNext s).host = s.host := by
  have hbusy : (outputs s.eng).busy = true := by rcases hp with hp | hp <;> simp [hp]
  obtain ⟨hports, hhost⟩ := driveNext_of_turn (by rw [hbusy, hplan, nextTurn_divide_busy _ _ _ hd hv])
  exact ⟨hports, hhost.trans (congrArg (fun plan => { s.host with plan := plan }) hplan.symm)⟩

theorem driveNext_request_atRest (hp : s.eng.phase = .idle ∨ s.eng.phase = .done)
    (hd : validOperandText d = true) (hv : validOperandText v = true)
    (hplan : s.host.plan = .divide d v s.cfg.n :: rest) :
    (driveNext s).ports = ⟨false, true, false, operandOfText s.cfg.n d, operandOfText s.cfg.n v⟩ ∧
      (driveNext s).host = { s.host with plan := rest } := by
  have hbusy : (outputs s.eng).busy = false := by rcases hp with hp | hp <;> simp [hp]
  exact driveNext_of_turn (by rw [hbusy, hplan, nextTurn_divide_atRest _ _ _ hd hv])

end DriveRequest

/-- Settles O41: no edge of a run looks at `start` or the operands; a request keeps its place in the plan while
`busy = 1`, and at rest its line has `start = 1`, which selects DIV. -/
theorem startIgnoredWhileBusy : Obligations.StartIgnoredWhileBusy := by
  refine ⟨fun s b d v hp => SamplesAlike.step_eq
    { rst := rfl, start := .inr hp, ready := .inl rfl, operands := .inr (.inr (.inr hp)) },
    fun s d v rest hd hv hplan => ⟨fun hp => driveNext_request_run hp hd hv hplan, fun hp => ?_⟩⟩
  obtain ⟨hports, hhost⟩ := driveNext_request_atRest hp hd hv hplan
  refine ⟨hports, hhost, _, _, _, decode_decodeWordOf_div ?_ hp ?_⟩ <;> rw [hports]

end Sys2Proof.Machine
